-- ==== Sys2Proof/Word.lean ====
section
/-!
DEFINITION. The words of the block: a 32-bit register or command word, an 8-bit character, a bit, a bitstring
(spec/00_scope.md rules R11 to R13).
-/

namespace Sys2Proof

/-- A register or command word; bit 0 is the least significant (R11, R13). -/
abbrev Word := BitVec 32

/-- A character byte, or one byte lane of the bus (R11, R17, R63). -/
abbrev Byte := BitVec 8

/-- A 16-bit index, the `IDX` operand and `RIDX` (R11, R25). -/
abbrev Index := BitVec 16

/-- One bit of a buffer or bitstring. -/
abbrev Bit := Bool

/-- A bitstring: position 0 is the first and most significant bit (R12). -/
abbrev Bitstring := List Bit

end Sys2Proof
end

