-- ==== Sys2Proof/Config.lean ====
section
/-!
DEFINITION. What an instance of the block fixes, and the free values (spec/00_scope.md rules R8 to R10,
spec/20_memory.md rule R62).
-/

namespace Sys2Proof

/-- The parameters of one instance. They are plain data, so a statement over all states is a statement over all
instances (assumption 1). -/
structure Config where
  /-- `MAX_BITS`, the capacity in bits (R8). -/
  maxBits : Nat
  /-- `BASE`, the bus address of the register window (R9). -/
  base : Nat
  /-- `BUS_ERROR_ON_REFUSED`: whether the platform's bus answers a refused access with an error (R62). No rule of the
  block reads it; the model only repeats it in the refusal it answers (assumption 3). -/
  busErrorOnRefused : Bool
  deriving DecidableEq, Repr

/-- The legal parameter values: `1 <= MAX_BITS <= 65535` (R8) and `BASE` a multiple of 64 (R9). -/
abbrev Config.Legal (c : Config) : Prop :=
  1 ≤ c.maxBits ∧ c.maxBits ≤ 65535 ∧ c.base % 64 = 0

/-- The reference-equivalent instance, `MAX_BITS = 99` (R8). `BASE` and the bus error are the platform's; 0 and
`false` are DESIGN CHOICES (assumptions 2 and 3), and nothing but `State.reset` uses this instance. -/
def Config.reference : Config := ⟨99, 0, false⟩

/-- FREE VALUE: the word that a read coinciding with reset returns. R230 says only that such an access has no effect
on the block (assumption 7). -/
opaque Config.resetReadData : Nat → Word

end Sys2Proof
end

