-- ==== Sys2Proof/Syntax.lean ====
section
/-!
DEFINITION. The six commands, one constructor per row of spec/opcode_table.json (spec/30_encoding.md rule R86).
A word that spells no command is no term of this type: the decoder rejects it by name, and the port runs
spec/43_control.md rule R172 for it.
-/

namespace Sys2Proof

/-- A command with its operands as rule R85 assembles them. -/
inductive Instr where
  /-- `NOP` (R170). -/
  | nop
  /-- `CLEAR` (R171). -/
  | clear
  /-- `PUSHD`, append `CH` to the data (R101). -/
  | pushd (ch : Byte)
  /-- `PUSHG`, append `CH` to the generator (R102). -/
  | pushg (ch : Byte)
  /-- `COMPUTE`, start the division (R126). -/
  | compute
  /-- `SEL`, set the read index to `IDX` (R150). -/
  | sel (idx : Index)
  deriving DecidableEq, Repr

end Sys2Proof
end

