-- ==== Sys2Proof/WellFormed.lean ====
section
/-!
DEFINITION. Well-formed instructions and well-formed instances.
Every operand value is a legal encoding (spec/30_encoding.md rule R85), and the operands' types hold exactly the
values their fields hold, so `Instr.wf` refuses nothing; what can be ill formed is an instance's parameters
(spec/00_scope.md rules R8 and R9).
-/

namespace Sys2Proof

/-- Every command with every operand value is well formed: "Every byte value is a legal encoding", and every 16-bit
index is legal (R85, R150). -/
def Instr.wf : Instr → Bool
  | .nop => true
  | .clear => true
  | .pushd _ => true
  | .pushg _ => true
  | .compute => true
  | .sel _ => true

/-- The parameters are legal (R8, R9). -/
def Config.wf (c : Config) : Bool :=
  decide (1 ≤ c.maxBits) && decide (c.maxBits ≤ 65535) && decide (c.base % 64 = 0)

end Sys2Proof
end

