-- ==== Sys2Proof/Decode.lean ====
section
/-!
DEFINITION. The decoder, total on every 32-bit word and rejecting by name, the encoder, and the opcode table
(spec/30_encoding.md rules R80 to R89).
-/

namespace Sys2Proof

/-- Why a word spells no command; both reasons have the one effect of R172 (assumption 20). -/
inductive DecodeReject where
  /-- An opcode from `0x6` to `0xF` (R89). -/
  | reservedOpcode
  /-- An assigned opcode with a 1 in a reserved bit of its format (R81, R87). -/
  | reservedBitSet
  deriving DecidableEq, Repr

/-- `OP = v[3:0]` (R81). -/
def opField (v : Word) : BitVec 4 := v.extractLsb' 0 4

/-- `CH = v[15:8]` (R85). -/
def chField (v : Word) : Byte := v.extractLsb' 8 8

/-- `IDX = v[31:16]` (R85). -/
def idxField (v : Word) : Index := v.extractLsb' 16 16

/-- The reserved bits of format N are all 0 (R82). -/
def formatNOk (v : Word) : Bool := v.extractLsb' 4 28 == 0

/-- The reserved bits of format C are all 0 (R83). -/
def formatCOk (v : Word) : Bool := v.extractLsb' 16 16 == 0 && v.extractLsb' 4 4 == 0

/-- The reserved bits of format I are all 0 (R84). -/
def formatIOk (v : Word) : Bool := v.extractLsb' 4 12 == 0

/-- `decode(v)` (R87); `ILLEGAL` is an error that says which of R87's two reasons holds. -/
def decode (v : Word) : Except DecodeReject Instr :=
  if opField v == 0x0 && formatNOk v then .ok .nop
  else if opField v == 0x1 && formatNOk v then .ok .clear
  else if opField v == 0x2 && formatCOk v then .ok (.pushd (chField v))
  else if opField v == 0x3 && formatCOk v then .ok (.pushg (chField v))
  else if opField v == 0x4 && formatNOk v then .ok .compute
  else if opField v == 0x5 && formatIOk v then .ok (.sel (idxField v))
  else if opField v ≤ 0x5 then .error .reservedBitSet
  else .error .reservedOpcode

/-- Format N: `OP` at bits [3:0], every other bit 0 (R82). -/
def formatN (op : BitVec 4) : Word := op.setWidth 32

/-- Format C: `CH` at bits [15:8], `OP` at bits [3:0], every other bit 0 (R83). -/
def formatC (ch : Byte) (op : BitVec 4) : Word := ch.setWidth 32 <<< 8 ||| op.setWidth 32

/-- Format I: `IDX` at bits [31:16], `OP` at bits [3:0], every other bit 0 (R84). -/
def formatI (idx : Index) (op : BitVec 4) : Word := idx.setWidth 32 <<< 16 ||| op.setWidth 32

/-- The command word of an instruction (R82 to R86). -/
def encode : Instr → Word
  | .nop => formatN 0x0
  | .clear => formatN 0x1
  | .pushd ch => formatC ch 0x2
  | .pushg ch => formatC ch 0x3
  | .compute => formatN 0x4
  | .sel idx => formatI idx 0x5

/-- A row of rule R86's table. -/
structure OpcodeRow where
  pattern : Word
  mask : Word
  deriving DecidableEq, Repr

/-- The row of rule R86's table (columns match and mask) that an instruction belongs to. -/
def opcodeRow : Instr → OpcodeRow
  | .nop => ⟨0x00000000, 0xFFFFFFFF⟩
  | .clear => ⟨0x00000001, 0xFFFFFFFF⟩
  | .pushd _ => ⟨0x00000002, 0xFFFF00FF⟩
  | .pushg _ => ⟨0x00000003, 0xFFFF00FF⟩
  | .compute => ⟨0x00000004, 0xFFFFFFFF⟩
  | .sel _ => ⟨0x00000005, 0x0000FFFF⟩

/-- The six rows of rule R86's table, in its order. -/
def opcodeTable : List OpcodeRow :=
  [⟨0x00000000, 0xFFFFFFFF⟩, ⟨0x00000001, 0xFFFFFFFF⟩, ⟨0x00000002, 0xFFFF00FF⟩,
   ⟨0x00000003, 0xFFFF00FF⟩, ⟨0x00000004, 0xFFFFFFFF⟩, ⟨0x00000005, 0x0000FFFF⟩]

/-- A word is the command of a row exactly when `(v AND mask) = match` (R86). -/
def OpcodeRow.covers (r : OpcodeRow) (v : Word) : Bool := v &&& r.mask == r.pattern

/-- The word whose low `nbits` bits are those of `w` and whose other bits are 0. -/
def tableWord (nbits w : Nat) : Word := BitVec.ofNat 32 (w % 2 ^ nbits)

/-- What the decoder reads from an opcode-table word. -/
def decodeTableWord (nbits w : Nat) : Option Instr := (decode (tableWord nbits w)).toOption

end Sys2Proof
end

