-- ==== Sys2Proof/Machine/State.lean ====
section
/-!
DEFINITION. The state of the block as plain data, the reasons a step can stop, and the state after reset
(spec/10_state.md sections 2 and 4).
-/

namespace Sys2Proof.Machine

/-- The sequencer's phase (R26). -/
inductive Phase where
  | idle
  | scan
  deriving DecidableEq, Repr

/-- The value of `ERRCODE` (R201). Codes 5 to 15 are never produced, so the type has none (assumption 16). -/
inductive ErrCode where
  | none
  | invalidCharacter
  | emptyInput
  | inputTooLong
  | illegalCommand
  deriving DecidableEq, Repr

/-- The four bit buffers (R45). -/
inductive Buffer where
  | data
  | gen
  | work
  | rem
  deriving DecidableEq, Repr

/-- The named registers of the window (R33). A reserved slot is `none : Option Reg`. -/
inductive Reg where
  | cmd
  | status
  | cap
  | dlen
  | glen
  | rlen
  | ridx
  | remch
  | framech
  deriving DecidableEq, Repr

/-- A bit buffer: its cells from position 0 on, `none` where a cell holds no value (R21 to R24, R43; assumption 8). -/
abbrev Cells := List (Option Bit)

/-- A buffer of `n` cells, none of which holds a value (R43). -/
def Cells.blank (n : Nat) : Cells := List.replicate n none

/-- One access of the host at the port: an address, a width in bytes, and whether it is a burst (R62). A write
carries its bytes lane by lane, lane 0 first (R63), so its width is the number of its lanes (assumptions 11 and 12). -/
inductive Access where
  | read (addr width : Nat) (burst : Bool)
  | write (addr : Nat) (lanes : List Byte) (burst : Bool)
  deriving DecidableEq, Repr

/-- What can move next (R18, R220): a host access, a slot in which the sequencer takes its enabled step, the reset
input (with the access that coincides with it, if one does, R230), a loss of power or clock (R220; assumption 13). -/
inductive Event where
  | access (a : Access)
  | sequencer
  | reset (coinciding : Option Access)
  | powerLoss
  deriving DecidableEq, Repr

/-- The state of one instance (assumption 22); lengths are exact naturals (assumption 18). The last three fields are
the model's own: the environment's schedule, what the host has read, and how many free values have been taken
(assumptions 4, 6 and 7). -/
structure State where
  /-- The instance's parameters; `CAP` is `cfg.maxBits` (R31). -/
  cfg : Config
  /-- `DATA` (R21). -/
  data : Cells
  /-- `DLEN` (R21). -/
  dlen : Nat
  /-- `GEN` (R22). -/
  gen : Cells
  /-- `GLEN` (R22). -/
  glen : Nat
  /-- `WORK` (R23). -/
  work : Cells
  /-- `REM` (R24). -/
  rem : Cells
  /-- `RLEN` (R24). -/
  rlen : Nat
  /-- `RIDX` (R25). -/
  ridx : Index
  /-- `PHASE` (R26). -/
  phase : Phase
  /-- `SCAN_I` (R26). -/
  scanI : Nat
  /-- `RVALID` (R28). -/
  rvalid : Bool
  /-- `RZERO` (R28). -/
  rzero : Bool
  /-- `ERRCODE` (R29). -/
  errcode : ErrCode
  /-- `INVCH` (R30). -/
  invch : Bool
  /-- `DOVF` (R30). -/
  dovf : Bool
  /-- `GOVF` (R30). -/
  govf : Bool
  /-- `CMDLOST` (R30). -/
  cmdlost : Bool
  /-- What arrives at the block, next first (R68; assumption 4). -/
  pending : List Event
  /-- The values the host's reads have returned, oldest first (R64; assumption 6). -/
  answers : List Word
  /-- How many free values have been taken (assumption 7). -/
  draws : Nat
  deriving DecidableEq, Repr

/-- Why the machine stops with a fault. All are SAFE: the spec says that a read of a cell without a value would be a
model bug and should fault (spec/93_implementation_defined.md part 2), and no state that `State.Inv` admits raises
one (assumption 8). -/
inductive Fault where
  /-- Raised by COMPUTE, the scan step and the finish step when a cell they read holds no value. Safe. -/
  | noValue (b : Buffer)
  /-- Raised by PUSHD, PUSHG, COMPUTE, the scan step and the finish step when they write a position the buffer does
  not have. Safe. -/
  | noCell (b : Buffer)
  /-- Raised by a read of REMCH or FRAMECH whose index selects a cell that holds no value. Safe. -/
  | noCharacter (r : Reg)
  deriving DecidableEq, Repr

/-- Why a step has no meaning. -/
inductive Refusal where
  /-- Raised by an arm of `exec` whose instruction has no meaning yet; no arm is left so. Safe. -/
  | notModelled (mnemonic : String)
  /-- Raised by the port for an access that is not 32 bits wide (R62), as the other three only where the host is
  stuck before an idle block and nothing else is pending (assumption 10). Safe. `busError` repeats the platform's
  parameter (assumption 3). -/
  | accessWidth (busError : Bool)
  /-- Raised by the port for a burst (R62). Safe. -/
  | accessBurst (busError : Bool)
  /-- Raised by the port for an address outside the window (R61, R62). Safe. -/
  | accessOutsideWindow (busError : Bool)
  /-- Raised by the port for a misaligned address (R62). Safe. -/
  | accessMisaligned (busError : Bool)
  deriving DecidableEq, Repr

/-- The state after reset of an instance (R43). `scanI := 0` and the three last fields are DESIGN CHOICES
(assumptions 4, 6, 7 and 9); every other value is R43's. -/
def State.resetFor (c : Config) : State where
  cfg := c
  data := Cells.blank c.maxBits
  dlen := 0
  gen := Cells.blank c.maxBits
  glen := 0
  work := Cells.blank c.maxBits
  rem := Cells.blank c.maxBits
  rlen := 0
  ridx := 0
  phase := .idle
  scanI := 0
  rvalid := false
  rzero := false
  errcode := .none
  invch := false
  dovf := false
  govf := false
  cmdlost := false
  pending := []
  answers := []
  draws := 0

/-- The reference-equivalent instance right after reset (R8, R43). -/
def State.reset : State := State.resetFor Config.reference

end Sys2Proof.Machine
end

