-- ==== Sys2Proof/Machine/Ops.lean ====
section
/-!
DEFINITION. The named operations over the buffers and the state that every meaning shares: reading and writing cells
and slices, withdrawing a result (R100), recording an error (R210), and reset (R230).
-/

namespace Sys2Proof.Machine

/-- `BUF[i]` as a value, if the cell exists and holds one (R12, R21 to R24). -/
def Cells.get (cells : Cells) (i : Nat) : Option Bit := (cells[i]?).join

/-- `BUF[i +: k]` as a bitstring, if all its cells hold values (R12). -/
def Cells.slice (c : Cells) (i : Nat) : Nat → Option Bitstring
  | 0 => some []
  | k + 1 =>
    match Cells.get c i, Cells.slice c (i + 1) k with
    | some b, some bs => some (b :: bs)
    | _, _ => none

/-- `BUF[i] <- b`, if the buffer has position `i` (R16). -/
def Cells.put (c : Cells) (i : Nat) (b : Bit) : Option Cells :=
  if i < c.length then some (c.set i (some b)) else none

/-- `BUF[i +: |bs|] <- bs`, if the buffer has all those positions (R16). -/
def Cells.putSlice (c : Cells) (i : Nat) : Bitstring → Option Cells
  | [] => some c
  | b :: bs =>
    match Cells.put c i b with
    | some c' => Cells.putSlice c' (i + 1) bs
    | none => none

/-- The canonical form of the block's storage: each of the four buffers has exactly `MAX_BITS` cells (R45). The block
has no other memory (R60). -/
abbrev Memory.wf (s : State) : Prop :=
  s.data.length = s.cfg.maxBits ∧ s.gen.length = s.cfg.maxBits ∧
  s.work.length = s.cfg.maxBits ∧ s.rem.length = s.cfg.maxBits

/-- Go on with a value that must be there, or stop with the fault that says it is not. -/
def withValue {α : Type} (o : Option α) (f : Fault) (k : α → Host.Outcome State Fault Refusal) :
    Host.Outcome State Fault Refusal :=
  match o with
  | some a => k a
  | none => .fault f

/-- `ClearResult()` (R100): the cells of `REM` stay. -/
def clearResult (s : State) : State :=
  { s with rvalid := false, rzero := false, rlen := 0 }

/-- `raise Error(code)` (R210): the error is recorded and nothing else changes; no control is transferred (R200).
There is no return from an error (R211). -/
def raiseError (e : ErrCode) (s : State) : State :=
  { s with errcode := e }

/-- The reset input (R230): every state element of the block takes its reset value of R43 in one step, a running
computation is abandoned. The instance's parameters and the environment's records are no elements of the block and
stay. -/
def resetBlock (s : State) : State :=
  { s with
    data := Cells.blank s.cfg.maxBits, dlen := 0
    gen := Cells.blank s.cfg.maxBits, glen := 0
    work := Cells.blank s.cfg.maxBits
    rem := Cells.blank s.cfg.maxBits, rlen := 0
    ridx := 0, phase := .idle, scanI := 0, rvalid := false, rzero := false, errcode := .none
    invch := false, dovf := false, govf := false, cmdlost := false }

/-- Give the host a value it has read (R64; assumption 6). -/
def answer (v : Word) (s : State) : State :=
  { s with answers := s.answers ++ [v] }

/-- Give the host a free value and count it (assumption 7). -/
def answerFree (s : State) : State :=
  { s with answers := s.answers ++ [Config.resetReadData s.draws], draws := s.draws + 1 }

end Sys2Proof.Machine
end

