-- ==== Sys2Proof/Machine/Control.lean ====
section
/-!
DEFINITION. The control commands NOP and CLEAR, and the effect of a word that spells no command
(spec/43_control.md).
-/

namespace Sys2Proof.Machine

/-- NOP (R170). -/
def execNop (s : State) : Host.Outcome State Fault Refusal := .next s

/-- CLEAR (R171): the cells of the buffers and `SCAN_I` stay. -/
def execClear (s : State) : Host.Outcome State Fault Refusal :=
  .next { clearResult s with
    dlen := 0, glen := 0, ridx := 0, errcode := .none
    invch := false, dovf := false, govf := false, cmdlost := false }

/-- ILLEGAL (R172): the one effect of every word that spells no command. -/
def execIllegal (s : State) : Host.Outcome State Fault Refusal :=
  .next (raiseError .illegalCommand s)

end Sys2Proof.Machine
end

