-- ==== Sys2Proof/Machine/Operands.lean ====
section
/-!
DEFINITION. Operand and bus forms: characters (R17, R103, R154), byte lanes (R63), register offsets (R33) and the
zero extension of a 16-bit number (R13).
-/

namespace Sys2Proof.Machine

/-- `chr2bit(CH)`; `none` is `INVALID` (R103). -/
def chr2bit (ch : Byte) : Option Bit :=
  if ch = 0x30 then some false
  else if ch = 0x31 then some true
  else none

/-- `bit2chr(b)` (R154). -/
def bit2chr (b : Bit) : Byte := if b then 0x31 else 0x30

/-- What a character port returns where a character stands: `CVALID` and the character, `0x100 | bit2chr(b)` (R41,
R42, R152, R153). -/
def charWord (b : Bit) : Word := 0x100 ||| (bit2chr b).setWidth 32

/-- `zext_32` of a number that the block holds in 16 bits, so bits [31:16] read 0 (R13, R37 to R40). -/
def zext32 (x : Index) : Word := x.setWidth 32

/-- The 32-bit word on four byte lanes; lane `k` carries bits `[8k+7 : 8k]` (R63). Only four lanes are ever admitted
(R62). -/
def wordOfLanes : List Byte → Word
  | [b0, b1, b2, b3] =>
    b0.setWidth 32 ||| b1.setWidth 32 <<< 8 ||| b2.setWidth 32 <<< 16 ||| b3.setWidth 32 <<< 24
  | _ => 0

/-- The four byte lanes of a 32-bit word (R63). -/
def lanesOfWord (v : Word) : List Byte :=
  [v.extractLsb' 0 8, v.extractLsb' 8 8, v.extractLsb' 16 8, v.extractLsb' 24 8]

/-- The register at a byte offset of the window; `none` is a reserved slot (R33, R44). -/
def regAt (off : Nat) : Option Reg :=
  match off with
  | 0x00 => some .cmd
  | 0x04 => some .status
  | 0x08 => some .cap
  | 0x0C => some .dlen
  | 0x10 => some .glen
  | 0x14 => some .rlen
  | 0x18 => some .ridx
  | 0x1C => some .remch
  | 0x20 => some .framech
  | _ => none

/-- The byte offset of a named register (R33). -/
def regOffset : Reg → Nat
  | .cmd => 0x00
  | .status => 0x04
  | .cap => 0x08
  | .dlen => 0x0C
  | .glen => 0x10
  | .rlen => 0x14
  | .ridx => 0x18
  | .remch => 0x1C
  | .framech => 0x20

/-- The address of an access. -/
def accessAddr : Access → Nat
  | .read addr _ _ => addr
  | .write addr _ _ => addr

/-- The width of an access in bytes; a write is as wide as its lanes. -/
def accessWidth : Access → Nat
  | .read _ width _ => width
  | .write _ lanes _ => lanes.length

/-- Whether an access is a burst. -/
def accessIsBurst : Access → Bool
  | .read _ _ burst => burst
  | .write _ _ burst => burst

/-- The 32-bit read `RegRead(off)` of an instance (R16). -/
def readAt (c : Config) (off : Nat) : Access := .read (c.base + off) 4 false

/-- The 32-bit write `RegWrite(off, v)` of an instance (R16). -/
def writeAt (c : Config) (off : Nat) (v : Word) : Access := .write (c.base + off) (lanesOfWord v) false

end Sys2Proof.Machine
end

