-- ==== Sys2Proof/Machine/Flags.lean ====
section
/-!
DEFINITION. The status flags and the STATUS word (R27, R29, R35, R201).
-/

namespace Sys2Proof.Machine

/-- `BUSY = 1` if `PHASE = SCAN` (R27). -/
def State.busy (s : State) : Bool := s.phase == .scan

/-- The 4-bit code of an error (R201). -/
def ErrCode.code : ErrCode → BitVec 4
  | .none => 0
  | .invalidCharacter => 1
  | .emptyInput => 2
  | .inputTooLong => 3
  | .illegalCommand => 4

/-- `ERR = 1` if `ERRCODE != 0` (R29). -/
def State.err (s : State) : Bool := s.errcode.code != 0

/-- `RZERO` of a remainder: every bit is 0, so it is 1 for the empty one (R128). -/
def allZero (r : Bitstring) : Bool := r.all (fun b => b == false)

/-- A flag at its bit of a word. -/
def flagBit (b : Bool) (k : Nat) : Word := (BitVec.ofBool b).setWidth 32 <<< k

/-- The read value of STATUS, R35's formula term by term; bits [31:12] are 0. -/
def statusWord (s : State) : Word :=
  flagBit s.busy 0 ||| flagBit s.rvalid 1 ||| flagBit s.err 2 ||| flagBit s.rzero 3 |||
  (s.errcode.code.setWidth 32 <<< 4) |||
  flagBit s.invch 8 ||| flagBit s.dovf 9 ||| flagBit s.govf 10 ||| flagBit s.cmdlost 11

end Sys2Proof.Machine
end

