-- ==== Sys2Proof/Machine/Divide.lean ====
section
/-!
DEFINITION. The division: the source's algorithm as a pure function, the XOR engine, validation, the command COMPUTE
and the two internal sequencer steps (spec/41_divide.md).
-/

namespace Sys2Proof.Machine

/-- `gf2_xor_engine`, `xeng(w, g, lead)` (R121): `out[j] = w[j] ^ (lead AND g[j])`, position by position. -/
def xeng (w g : Bitstring) (lead : Bit) : Bitstring :=
  List.zipWith (fun wj gj => wj ^^ (lead && gj)) w g

/-- The augmented message `d ++ 0^(m-1)` (R120 step 1, R122). -/
def augment (d g : Bitstring) : Bitstring := d ++ List.replicate (g.length - 1) false

/-- One iteration of R120's loop at position `i`: the lead bit is read, then the window `a[i +: m]` is written. -/
def scanAt (g : Bitstring) (i : Nat) (a : Bitstring) : Bitstring :=
  a.take i ++ xeng ((a.drop i).take g.length) g (a.getD i false) ++ a.drop (i + g.length)

/-- The working buffer after the iterations at positions `0 .. k-1` (R120 step 2, R123). -/
def scanUpTo (g : Bitstring) (a : Bitstring) : Nat → Bitstring
  | 0 => a
  | k + 1 => scanAt g k (scanUpTo g a k)

/-- `crc(d, g)` (R120): the last `m - 1` positions after the scan of positions `0 .. n-1` (R124). The spec gives it
for `|d| >= 1` and `|g| >= 1`, and the block uses it for no other (assumption 21). -/
def crc (d g : Bitstring) : Bitstring :=
  ((scanUpTo g (augment d g) d.length).drop d.length).take (g.length - 1)

/-- `validate()` (R125); the first condition that applies wins (R208). Lengths are exact naturals (R19). -/
def validate (s : State) : ErrCode :=
  if s.invch then .invalidCharacter
  else if s.dlen = 0 ∨ s.glen = 0 then .emptyInput
  else if s.dovf = true ∨ s.govf = true ∨ s.cfg.maxBits < s.dlen + s.glen - 1 then .inputTooLong
  else .none

/-- The accepted half of COMPUTE (R126): `WORK` takes the augmented message and the scan starts. -/
def startScan (s : State) : Host.Outcome State Fault Refusal :=
  withValue (Cells.slice s.data 0 s.dlen) (.noValue .data) fun d =>
  withValue (Cells.putSlice s.work 0 (d ++ List.replicate (s.glen - 1) false)) (.noCell .work) fun work =>
    .next { s with errcode := .none, work := work, scanI := 0, phase := .scan }

/-- COMPUTE (R126). -/
def execCompute (s : State) : Host.Outcome State Fault Refusal :=
  match validate s with
  | .none => startScan (clearResult s)
  | e => .next (raiseError e (clearResult s))

/-- The sequencer's scan step (R127). -/
def scanStep (s : State) : Host.Outcome State Fault Refusal :=
  withValue (Cells.get s.work s.scanI) (.noValue .work) fun lead =>
  withValue (Cells.slice s.work s.scanI s.glen) (.noValue .work) fun w =>
  withValue (Cells.slice s.gen 0 s.glen) (.noValue .gen) fun g =>
  withValue (Cells.putSlice s.work s.scanI (xeng w g lead)) (.noCell .work) fun work =>
    .next { s with work := work, scanI := s.scanI + 1 }

/-- The sequencer's finish step (R128). -/
def finishStep (s : State) : Host.Outcome State Fault Refusal :=
  withValue (Cells.slice s.work s.dlen (s.glen - 1)) (.noValue .work) fun r =>
  withValue (Cells.putSlice s.rem 0 r) (.noCell .rem) fun rem =>
    .next { s with
      rem := rem, rlen := s.glen - 1, rzero := allZero r, rvalid := true, phase := .idle }

/-- The internal step that is enabled, if one is (R127, R128); where none is, nothing happens (assumption 5). -/
def sequencerStep (s : State) : Host.Outcome State Fault Refusal :=
  match s.phase with
  | .idle => .next s
  | .scan =>
    if s.scanI < s.dlen then scanStep s
    else if s.scanI = s.dlen then finishStep s
    else .next s

end Sys2Proof.Machine
end

