-- ==== Sys2Proof/Machine/Input.lean ====
section
/-!
DEFINITION. The input commands PUSHD and PUSHG (spec/40_input.md).
-/

namespace Sys2Proof.Machine

/-- PUSHD (R101): the result is withdrawn; an invalid byte sets `INVCH` only, a valid one at a full buffer sets
`DOVF`, and any other is appended. -/
def execPushd (ch : Byte) (s : State) : Host.Outcome State Fault Refusal :=
  match chr2bit ch with
  | none => .next { clearResult s with invch := true }
  | some b =>
    if s.dlen = s.cfg.maxBits then .next { clearResult s with dovf := true }
    else withValue (Cells.put s.data s.dlen b) (.noCell .data) fun cells =>
      .next { clearResult s with data := cells, dlen := s.dlen + 1 }

/-- PUSHG (R102): as PUSHD, for the generator and `GOVF`. -/
def execPushg (ch : Byte) (s : State) : Host.Outcome State Fault Refusal :=
  match chr2bit ch with
  | none => .next { clearResult s with invch := true }
  | some b =>
    if s.glen = s.cfg.maxBits then .next { clearResult s with govf := true }
    else withValue (Cells.put s.gen s.glen b) (.noCell .gen) fun cells =>
      .next { clearResult s with gen := cells, glen := s.glen + 1 }

end Sys2Proof.Machine
end

