-- ==== Sys2Proof/Machine/Readout.lean ====
section
/-!
DEFINITION. SEL and the read values of every register (spec/42_readout.md, spec/10_state.md section 3).
-/

namespace Sys2Proof.Machine

/-- SEL (R150). -/
def execSel (idx : Index) (s : State) : Host.Outcome State Fault Refusal :=
  .next { s with ridx := idx }

/-- The word a character port gives for the bit of a cell, if the cell holds one. -/
def charOf (c : Cells) (i : Nat) : Option Word := (Cells.get c i).map charWord

/-- REMCH (R152); `none` only where the selected cell holds no value. -/
def remchWord (s : State) : Option Word :=
  if s.rvalid = true ∧ s.ridx.toNat < s.rlen then charOf s.rem s.ridx.toNat else some 0

/-- FRAMECH (R153); `none` only where the selected cell holds no value. -/
def framechWord (s : State) : Option Word :=
  if s.rvalid = true ∧ s.ridx.toNat < s.dlen then charOf s.data s.ridx.toNat
  else if s.rvalid = true ∧ s.ridx.toNat < s.dlen + s.rlen then charOf s.rem (s.ridx.toNat - s.dlen)
  else some 0

/-- The data bitstring `DATA[0 +: DLEN]` (R21), if its cells hold values. -/
def State.dataBits (s : State) : Option Bitstring := Cells.slice s.data 0 s.dlen

/-- The generator bitstring `GEN[0 +: GLEN]` (R22), if its cells hold values. -/
def State.genBits (s : State) : Option Bitstring := Cells.slice s.gen 0 s.glen

/-- The remainder bitstring `REM[0 +: RLEN]` (R24), if its cells hold values. -/
def State.remBits (s : State) : Option Bitstring := Cells.slice s.rem 0 s.rlen

/-- The transmitted frame, defined only when `RVALID = 1` (R151). -/
def State.frame (s : State) : Option Bitstring :=
  if s.rvalid then
    match s.dataBits, s.remBits with
    | some d, some r => some (d ++ r)
    | _, _ => none
  else none

/-- The read value of a slot (R34 to R44); CMD and the reserved slots (`none`) read 0. The outer `none` only where a
character port selects a cell that holds no value. -/
def regRead (s : State) (r : Option Reg) : Option Word :=
  match r with
  | none => some 0
  | some .cmd => some 0
  | some .status => some (statusWord s)
  | some .cap => some (zext32 (BitVec.ofNat 16 s.cfg.maxBits))
  | some .dlen => some (zext32 (BitVec.ofNat 16 s.dlen))
  | some .glen => some (zext32 (BitVec.ofNat 16 s.glen))
  | some .rlen => some (zext32 (BitVec.ofNat 16 s.rlen))
  | some .ridx => some (zext32 s.ridx)
  | some .remch => remchWord s
  | some .framech => framechWord s

end Sys2Proof.Machine
end

