-- ==== Sys2Proof/Machine/Dispatch.lean ====
section
/-!
DEFINITION. `execute` of a decoded command (spec/30_encoding.md rule R88): one arm per constructor.
-/

namespace Sys2Proof.Machine

def exec (i : Instr) (s : State) : Host.Outcome State Fault Refusal :=
  match i with
  | .nop => Sys2Proof.Machine.execNop s
  | .clear => Sys2Proof.Machine.execClear s
  | .pushd ch => Sys2Proof.Machine.execPushd ch s
  | .pushg ch => Sys2Proof.Machine.execPushg ch s
  | .compute => Sys2Proof.Machine.execCompute s
  | .sel idx => Sys2Proof.Machine.execSel idx s

end Sys2Proof.Machine
end

