-- ==== Sys2Proof/Machine/Port.lean ====
section
/-!
DEFINITION. The host port: which accesses are admitted (R62), register reads (R64) and writes (R65), the dispatch of
a command word (R88), and the events of the environment (R18, R220, R230).
-/

namespace Sys2Proof.Machine

/-- Why an access is refused, `none` for an admitted one: a single 32-bit access at `BASE + off` with `off` a multiple
of 4 and `0 <= off <= 0x3C` (R61, R62; assumption 10). -/
def accessRefusal (c : Config) (a : Access) : Option Refusal :=
  if accessWidth a ≠ 4 then some (.accessWidth c.busErrorOnRefused)
  else if accessIsBurst a then some (.accessBurst c.busErrorOnRefused)
  else if accessAddr a < c.base ∨ c.base + 0x3F < accessAddr a then
    some (.accessOutsideWindow c.busErrorOnRefused)
  else if (accessAddr a - c.base) % 4 ≠ 0 then some (.accessMisaligned c.busErrorOnRefused)
  else none

/-- The slot an admitted access names. -/
def accessSlot (c : Config) (a : Access) : Option Reg := regAt (accessAddr a - c.base)

/-- Dispatch of a command word (R88): the busy test comes before decoding (assumption 17). -/
def dispatchCommand (v : Word) (s : State) : Host.Outcome State Fault Refusal :=
  if s.busy then .next { s with cmdlost := true }
  else
    match decode v with
    | .ok i => exec i s
    | .error _ => execIllegal s

/-- `RegRead` (R64): the value goes to the host and no element of the block changes. -/
def hostRead (slot : Option Reg) (s : State) : Host.Outcome State Fault Refusal :=
  withValue (regRead s slot) (.noCharacter (slot.getD .cmd)) fun v => .next (answer v s)

/-- `RegWrite` (R65): only a write to CMD acts. -/
def hostWrite (slot : Option Reg) (v : Word) (s : State) : Host.Outcome State Fault Refusal :=
  match slot with
  | some .cmd => dispatchCommand v s
  | _ => .next s

/-- One access at the port (R62, R64, R65). -/
def hostAccess (a : Access) (s : State) : Host.Outcome State Fault Refusal :=
  match accessRefusal s.cfg a with
  | some r => .refused r
  | none =>
    match a with
    | .read _ _ _ => hostRead (accessSlot s.cfg a) s
    | .write _ lanes _ => hostWrite (accessSlot s.cfg a) (wordOfLanes lanes) s

/-- What an access that coincides with reset leaves behind (R230): nothing in the block; an admitted read gives the
host a value the spec does not state (assumptions 7 and 23). -/
def coincidingAnswer (a : Option Access) (s : State) : State :=
  match a with
  | some (.read addr width burst) =>
    match accessRefusal s.cfg (.read addr width burst) with
    | some _ => s
    | none => answerFree s
  | some (.write _ _ _) => s
  | none => s

/-- The step of one event (R18, R220, R230). -/
def runEvent (e : Event) (s : State) : Host.Outcome State Fault Refusal :=
  match e with
  | .access a => hostAccess a s
  | .sequencer => sequencerStep s
  | .reset a => .next (resetBlock (coincidingAnswer a s))
  | .powerLoss => .next (resetBlock s)

/-! ### Whose turn it is -/

/-- The first event that is no host access, and what is left without it. A host that is stuck makes no access, so none
coincides with a reset taken here (assumption 10). -/
def takeOther : List Event → Option (Event × List Event)
  | [] => none
  | .access a :: es => (takeOther es).map fun p => (p.1, .access a :: p.2)
  | .sequencer :: es => some (.sequencer, es)
  | .reset _ :: es => some (.reset none, es)
  | .powerLoss :: es => some (.powerLoss, es)

/-- What moves next of what is pending, and what is left. A refused access has no step and leaves the host stuck
(R62): it stays, no later access is made, and only the events that are no host's go on (R230, R239; assumption 10).
`none`: nothing that is pending can move. -/
def nextTurn (c : Config) (pending : List Event) : Option (Event × List Event) :=
  match pending with
  | [] => none
  | .access a :: es =>
    match accessRefusal c a with
    | none => some (.access a, es)
    | some _ => takeOther (.access a :: es)
  | .sequencer :: es => some (.sequencer, es)
  | .reset a :: es => some (.reset a, es)
  | .powerLoss :: es => some (.powerLoss, es)

/-- The step where nothing that is pending can move. The sequencer takes its enabled step whatever the host does, also
when the host is stuck (R239); a host that is stuck before an idle block is refused, since nothing is left to move. -/
def aloneStep (s : State) : Host.Outcome State Fault Refusal :=
  match s.pending with
  | .access a :: _ => if s.busy then sequencerStep s else hostAccess a s
  | _ => sequencerStep s

/-- The host makes an access in the event. DEDUCED: one that coincides with reset is the host's too (R230;
assumption 24). -/
def makesAccess : Event → Bool
  | .access _ => true
  | .sequencer => false
  | .reset a => a.isSome
  | .powerLoss => false

/-- A run has ended: the host has made its last access and `PHASE = IDLE` (R240). What is still to come that is not the
host's, a reset, a loss of power or an idle sequencer slot, lies after the end. DEDUCED: a host that is stuck has not
made its last access (assumption 24). -/
abbrev State.ended (s : State) : Prop := (∀ e ∈ s.pending, makesAccess e = false) ∧ s.phase = .idle

/-- The register values, slot by slot (R33): at the state at which a run ends, its final observation (R240). -/
def State.observation (s : State) : List (Option Word) :=
  (List.range 16).map fun k => regRead s (regAt (4 * k))

end Sys2Proof.Machine
end

