-- ==== Sys2Proof/Machine/Step.lean ====
section
/-!
DEFINITION. The step of the machine (spec/00_scope.md rule R18), and how a command word is put before it.
-/

namespace Sys2Proof.Machine

/-- One step: the next event that can move; where none can, the sequencer goes on by itself (R18, R68, R239). -/
def step (s : State) : Host.Outcome State Fault Refusal :=
  match nextTurn s.cfg s.pending with
  | some (e, rest) => runEvent e { s with pending := rest }
  | none => aloneStep s

/-- The command word `w` as the next host write to CMD: the block fetches nothing (R71), so a command is next when its
write is the first event at the port (assumption 14). -/
def State.withFetchWord (s : State) (nbits w : Nat) : State :=
  { s with pending := .access (writeAt s.cfg 0x00 (tableWord nbits w)) :: s.pending }

end Sys2Proof.Machine
end

