-- ==== Sys2Proof/Machine/Assembler.lean ====
section
/-!
DEFINITION. The assembler lines and pseudo-instructions of the host side (spec/30_encoding.md rules R90 and R91). They
are syntax for host accesses; no step of the block reads this file.
-/

namespace Sys2Proof.Machine

/-- A line of a host program (R90, R91). -/
inductive Line where
  /-- A line with nothing but space or a comment. -/
  | blank
  /-- A command line; it assembles to one CMD write. -/
  | cmd (i : Instr)
  /-- `rd <REG>`. -/
  | rd (r : Reg)
  /-- `wr <REG>, <value>`. -/
  | wr (r : Reg) (v : Word)
  /-- `loadd "s"`. -/
  | loadd (s : List Byte)
  /-- `loadg "s"`. -/
  | loadg (s : List Byte)
  /-- `wait`. -/
  | wait
  /-- `getrem`. -/
  | getrem
  /-- `getframe`. -/
  | getframe
  /-- `crc "d", "g"`. -/
  | crc (d g : List Byte)
  deriving DecidableEq, Repr

/-- What the host itself finds out while it runs a pseudo-instruction: how many reads of STATUS its `wait` loop saw
busy, and the values RLEN and DLEN returned. The loop's branch is the host's, not the block's (R91; assumption 15). -/
structure HostReadings where
  busyReads : Nat
  rlen : Nat
  dlen : Nat
  deriving DecidableEq, Repr

/-- `loadd "s"` (R91). -/
def expandLoadd (s : List Byte) : List Line := s.map fun ch => .cmd (.pushd ch)

/-- `loadg "s"` (R91). -/
def expandLoadg (s : List Byte) : List Line := s.map fun ch => .cmd (.pushg ch)

/-- `wait`: the busy reads, and the one that ends the loop (R91). -/
def expandWait (busyReads : Nat) : List Line := List.replicate (busyReads + 1) (.rd .status)

/-- `sel k; rd <port>` for `k = 0 .. n-1` (R91). -/
def expandReadout (port : Reg) (n : Nat) : List Line :=
  (List.range n).flatMap fun k => [.cmd (.sel (BitVec.ofNat 16 k)), .rd port]

/-- Each pseudo-instruction's expansion; other lines expand to themselves (R91). -/
def Line.expand (h : HostReadings) : Line → List Line
  | .blank => []
  | .cmd i => [.cmd i]
  | .rd r => [.rd r]
  | .wr r v => [.wr r v]
  | .loadd s => expandLoadd s
  | .loadg s => expandLoadg s
  | .wait => expandWait h.busyReads
  | .getrem => .rd .rlen :: expandReadout .remch h.rlen
  | .getframe => .rd .dlen :: .rd .rlen :: expandReadout .framech (h.dlen + h.rlen)
  | .crc d g =>
    .cmd .clear :: (expandLoadd d ++ expandLoadg g ++ .cmd .compute :: expandWait h.busyReads)

/-- The bus access of a line that is no pseudo-instruction (R90). -/
def Line.access (c : Config) : Line → Option Access
  | .cmd i => some (writeAt c 0x00 (encode i))
  | .rd r => some (readAt c (regOffset r))
  | .wr r v => some (writeAt c (regOffset r) v)
  | .blank => none
  | .loadd _ => none
  | .loadg _ => none
  | .wait => none
  | .getrem => none
  | .getframe => none
  | .crc _ _ => none

/-- The accesses of a line, in order. -/
def Line.assemble (c : Config) (h : HostReadings) (l : Line) : List Access :=
  (l.expand h).filterMap (Line.access c)

/-! ### The lines as text -/

/-- White space inside a line. -/
def isBlankChar (c : Char) : Bool := c == ' ' || c == '\t'

/-- The text without its comment (R90). -/
def stripComment (l : List Char) : List Char := l.takeWhile fun c => c != '#'

/-- The text without the white space around it. -/
def trimChars (l : List Char) : List Char :=
  ((l.dropWhile isBlankChar).reverse.dropWhile isBlankChar).reverse

/-- The value of a digit below `base`. -/
def digitValue (base : Nat) (c : Char) : Option Nat :=
  let n := c.toNat
  let v :=
    if 48 ≤ n ∧ n ≤ 57 then some (n - 48)
    else if 97 ≤ n ∧ n ≤ 102 then some (n - 87)
    else if 65 ≤ n ∧ n ≤ 70 then some (n - 55)
    else none
  v.filter fun d => d < base

/-- Digits read onto a value. -/
def digitsOnto (base : Nat) (acc : Nat) : List Char → Option Nat
  | [] => some acc
  | c :: cs =>
    match digitValue base c with
    | some d => digitsOnto base (acc * base + d) cs
    | none => none

/-- A number, decimal or `0x`-hex, below `limit` (R90). -/
def parseNumber (limit : Nat) (l : List Char) : Option Nat :=
  let v :=
    match l with
    | [] => none
    | '0' :: 'x' :: c :: cs => digitsOnto 16 0 (c :: cs)
    | l => digitsOnto 10 0 l
  v.filter fun n => n < limit

/-- A character as the byte that carries it, where it has one (R17). -/
def charByte (c : Char) : Option Byte :=
  if c.toNat < 256 then some (BitVec.ofNat 8 c.toNat) else none

/-- `<ch>`: a quoted character or a byte literal (R90). -/
def parseCharOperand (l : List Char) : Option Byte :=
  match l with
  | ['\'', c, '\''] => charByte c
  | '0' :: 'x' :: cs => (parseNumber 256 ('0' :: 'x' :: cs)).map (BitVec.ofNat 8)
  | _ => none

/-- A string in double quotes, and the text after it (R91). -/
def parseString (l : List Char) : Option (List Byte × List Char) :=
  match l with
  | '"' :: cs =>
    match cs.dropWhile fun c => c != '"' with
    | '"' :: rest => ((cs.takeWhile fun c => c != '"').mapM charByte).map fun s => (s, rest)
    | _ => none
  | _ => none

/-- A string operand that ends the line. -/
def parseLastString (l : List Char) : Option (List Byte) :=
  match parseString l with
  | some (s, []) => some s
  | _ => none

/-- Two operands with a comma between them. -/
def splitComma (l : List Char) : Option (List Char × List Char) :=
  match l.dropWhile fun c => c != ',' with
  | ',' :: rest => some (trimChars (l.takeWhile fun c => c != ','), trimChars rest)
  | _ => none

/-- The name of a register (R90). -/
def parseReg (l : List Char) : Option Reg :=
  if l = ['C', 'M', 'D'] then some .cmd
  else if l = ['S', 'T', 'A', 'T', 'U', 'S'] then some .status
  else if l = ['C', 'A', 'P'] then some .cap
  else if l = ['D', 'L', 'E', 'N'] then some .dlen
  else if l = ['G', 'L', 'E', 'N'] then some .glen
  else if l = ['R', 'L', 'E', 'N'] then some .rlen
  else if l = ['R', 'I', 'D', 'X'] then some .ridx
  else if l = ['R', 'E', 'M', 'C', 'H'] then some .remch
  else if l = ['F', 'R', 'A', 'M', 'E', 'C', 'H'] then some .framech
  else none

/-- The operands of `wr` (R90). -/
def parseWr (l : List Char) : Option Line :=
  match splitComma l with
  | some (r, v) =>
    match parseReg r, parseNumber (2 ^ 32) v with
    | some r, some v => some (.wr r (BitVec.ofNat 32 v))
    | _, _ => none
  | none => none

/-- The operands of `crc` (R91). -/
def parseCrc (l : List Char) : Option Line :=
  match parseString l with
  | some (d, rest) =>
    match trimChars rest with
    | ',' :: rest => (parseLastString (trimChars rest)).map fun g => .crc d g
    | _ => none
  | none => none

/-- A mnemonic with its operand text (R90, R91). -/
def parseMnemonic (m arg : List Char) : Option Line :=
  if m = ['n', 'o', 'p'] ∧ arg = [] then some (.cmd .nop)
  else if m = ['c', 'l', 'e', 'a', 'r'] ∧ arg = [] then some (.cmd .clear)
  else if m = ['c', 'o', 'm', 'p', 'u', 't', 'e'] ∧ arg = [] then some (.cmd .compute)
  else if m = ['w', 'a', 'i', 't'] ∧ arg = [] then some .wait
  else if m = ['g', 'e', 't', 'r', 'e', 'm'] ∧ arg = [] then some .getrem
  else if m = ['g', 'e', 't', 'f', 'r', 'a', 'm', 'e'] ∧ arg = [] then some .getframe
  else if m = ['p', 'u', 's', 'h', 'd'] then (parseCharOperand arg).map fun ch => .cmd (.pushd ch)
  else if m = ['p', 'u', 's', 'h', 'g'] then (parseCharOperand arg).map fun ch => .cmd (.pushg ch)
  else if m = ['s', 'e', 'l'] then
    (parseNumber 65536 arg).map fun n => .cmd (.sel (BitVec.ofNat 16 n))
  else if m = ['r', 'd'] then (parseReg arg).map fun r => .rd r
  else if m = ['w', 'r'] then parseWr arg
  else if m = ['l', 'o', 'a', 'd', 'd'] then (parseLastString arg).map fun s => .loadd s
  else if m = ['l', 'o', 'a', 'd', 'g'] then (parseLastString arg).map fun s => .loadg s
  else if m = ['c', 'r', 'c'] then parseCrc arg
  else none

/-- One line of assembler text; `none` is no line of R90 or R91 (assumption 15). -/
def parseLine (l : List Char) : Option Line :=
  match trimChars (stripComment l) with
  | [] => some .blank
  | t =>
    parseMnemonic (t.takeWhile fun c => !isBlankChar c) (trimChars (t.dropWhile fun c => !isBlankChar c))

end Sys2Proof.Machine
end

