-- ==== Sys2Proof/Safety.lean ====
section
/-!
DEFINITION. What claims call a safe state and a safe run: the invariants of spec/10_state.md rule R32, the model's
inductive invariant around them, and runs that no refused access stops (spec/20_memory.md rule R62).
-/

namespace Sys2Proof.Machine

/-- The invariants of rule R32, one field for each of its four points. -/
structure State.SpecInvariants (s : State) : Prop where
  lengths : s.dlen ≤ s.cfg.maxBits ∧ s.glen ≤ s.cfg.maxBits
  noResult : s.rvalid = false → s.rlen = 0 ∧ s.rzero = false
  result : s.rvalid = true →
    s.phase = .idle ∧ 1 ≤ s.dlen ∧ 1 ≤ s.glen ∧ s.dlen + s.glen - 1 ≤ s.cfg.maxBits ∧ s.rlen = s.glen - 1 ∧
    ∃ d g, s.dataBits = some d ∧ s.genBits = some g ∧ s.remBits = some (crc d g)
  scanning : s.phase = .scan →
    s.rvalid = false ∧ s.errcode = .none ∧ 1 ≤ s.dlen ∧ 1 ≤ s.glen ∧
    s.dlen + s.glen - 1 ≤ s.cfg.maxBits ∧ s.scanI ≤ s.dlen

/-- The model's inductive invariant: legal parameters, R32, and what R32 rests on (buffers of `MAX_BITS` cells, values
in every cell below a length, the working buffer as R120's loop leaves it, `RZERO` as R28 says). -/
structure State.Inv (s : State) : Prop where
  legal : s.cfg.Legal
  wf : Memory.wf s
  spec : s.SpecInvariants
  scanPos : s.scanI ≤ s.cfg.maxBits
  dataValued : ∃ d, s.dataBits = some d
  genValued : ∃ g, s.genBits = some g
  zeroFlag : s.rvalid = true → ∃ r, s.remBits = some r ∧ s.rzero = allZero r
  midScan : s.phase = .scan →
    ∃ d g, s.dataBits = some d ∧ s.genBits = some g ∧
      Cells.slice s.work 0 (s.dlen + s.glen - 1) = some (scanUpTo g (augment d g) s.scanI)

/-- The event is a host access. -/
def isAccess : Event → Bool
  | .access _ => true
  | .sequencer => false
  | .reset _ => false
  | .powerLoss => false

/-- The event without the host access that would coincide with it. -/
def withoutHost : Event → Event
  | .access a => .access a
  | .sequencer => .sequencer
  | .reset _ => .reset none
  | .powerLoss => .powerLoss

/-- The event is not an access that the block refuses. -/
abbrev admitted (c : Config) (e : Event) : Prop :=
  match e with
  | .access a => accessRefusal c a = none
  | .sequencer => True
  | .reset _ => True
  | .powerLoss => True

/-- No access that is still to come will be refused (R62). -/
abbrev State.admissible (s : State) : Prop := ∀ e ∈ s.pending, admitted s.cfg e

/-- `k` steps, stopping at the first fault or refusal. -/
def run : Nat → State → Host.Outcome State Fault Refusal
  | 0, s => .next s
  | k + 1, s =>
    match step s with
    | .next t => run k t
    | .fault f => .fault f
    | .refused r => .refused r

/-- At most `k` steps, stopping at the state at which the run has ended; `State.observation` of that state is the final
observation (R240). -/
def runToEnd : Nat → State → Host.Outcome State Fault Refusal
  | 0, s => .next s
  | k + 1, s =>
    if s.ended then .next s
    else
      match step s with
      | .next t => runToEnd k t
      | .fault f => .fault f
      | .refused r => .refused r

/-- `k` steps from `s` raise no fault. -/
abbrev State.safeFor (s : State) (k : Nat) : Prop := ∀ f, run k s ≠ .fault f

/-! ### What the next step is about -/

/-- The host's write of the word `v` to CMD, as an event (R34). -/
def cmdWrite (c : Config) (v : Word) : Event := .access (writeAt c 0x00 v)

/-- The next step executes a decoded command, or a word that spells none: the block is idle and the next event is an
admitted write to CMD (R88). -/
def State.executes (s : State) (d : Except DecodeReject Instr) : Prop :=
  s.phase = .idle ∧ ∃ addr lanes burst rest,
    s.pending = .access (.write addr lanes burst) :: rest ∧
    accessRefusal s.cfg (.write addr lanes burst) = none ∧
    accessSlot s.cfg (.write addr lanes burst) = some .cmd ∧ decode (wordOfLanes lanes) = d

/-- The next step loses a command: the block is busy and the next event is an admitted write to CMD (R88). -/
def State.losesCommand (s : State) : Prop :=
  s.phase = .scan ∧ ∃ addr lanes burst rest,
    s.pending = .access (.write addr lanes burst) :: rest ∧
    accessRefusal s.cfg (.write addr lanes burst) = none ∧
    accessSlot s.cfg (.write addr lanes burst) = some .cmd

/-- The next step is a reset (R220, R230). -/
def State.resets (s : State) : Prop :=
  ∃ rest, (∃ a, nextTurn s.cfg s.pending = some (.reset a, rest)) ∨
    nextTurn s.cfg s.pending = some (.powerLoss, rest)

/-- The next step is the sequencer's, and a computation runs (R127, R128). -/
def State.sequences (s : State) : Prop :=
  s.phase = .scan ∧
    (nextTurn s.cfg s.pending = none ∨ ∃ rest, nextTurn s.cfg s.pending = some (.sequencer, rest))

/-- A word written to CMD while a computation runs is discarded and sets `CMDLOST` and nothing else (R88). -/
def lostWhileBusy (v : Word) : Prop :=
  ∀ s rest, s.phase = .scan → s.pending = cmdWrite s.cfg v :: rest →
    step s = .next { s with pending := rest, cmdlost := true }

/-- A list of commands, executed one after the other. -/
def execAll : List Instr → State → Host.Outcome State Fault Refusal
  | [], s => .next s
  | i :: is, s =>
    match exec i s with
    | .next t => execAll is t
    | .fault f => .fault f
    | .refused r => .refused r

/-- The command is a PUSHD. -/
def isPushd : Instr → Bool
  | .nop => false
  | .clear => false
  | .pushd _ => true
  | .pushg _ => false
  | .compute => false
  | .sel _ => false

/-- The command is a PUSHG. -/
def isPushg : Instr → Bool
  | .nop => false
  | .clear => false
  | .pushd _ => false
  | .pushg _ => true
  | .compute => false
  | .sel _ => false

/-- The two states are the same to the host, now and later: they may differ only in what no rule reads, that is cells
at or above a length, `WORK` and `SCAN_I` without a computation, `REM` without a result (R21 to R26, R43, R46). -/
structure State.sameForHost (s t : State) : Prop where
  fields : t = { s with data := t.data, gen := t.gen, work := t.work, rem := t.rem, scanI := t.scanI }
  data : t.dataBits = s.dataBits
  gen : t.genBits = s.genBits
  result : s.rvalid = true → t.remBits = s.remBits
  scan : s.phase = .scan →
    t.scanI = s.scanI ∧
    Cells.slice t.work 0 (s.dlen + s.glen - 1) = Cells.slice s.work 0 (s.dlen + s.glen - 1)

end Sys2Proof.Machine
end

