-- ==== Sys2Proof/Certificates/Slice0/Obligations.lean ====
section
/-!
DEFINITION. The statements for the provers. Each docstring says which rule of spec/ it formalises.
Unless a statement says otherwise it holds for every instance (every `MAX_BITS` and `BASE`), since the parameters are
part of the state.
-/

open Sys2Proof Sys2Proof.Machine

/-! ### Encoding -/

/-- Decoding the command word of any well-formed instruction gives it back, with every operand at every value
(R85 to R87). -/
def Obligations.DecodeEncodeAgree : Prop :=
  ∀ i : Instr, i.wf = true → decode (encode i) = .ok i

/-- Each command has one word: a word that decodes to an instruction is that instruction's word (R82 to R87). -/
def Obligations.EncodeInvertsDecode : Prop :=
  ∀ (v : Word) (i : Instr), decode v = .ok i → encode i = v

/-- R86 row by row with its match and mask literals, R85's operand fields, the common words of R86, and that no two
rows match one word. -/
def Obligations.OpcodeTableDecodes : Prop :=
  (∀ v : Word, decode v = .ok .nop ↔ v &&& 0xFFFFFFFF = 0x00000000) ∧
  (∀ v : Word, decode v = .ok .clear ↔ v &&& 0xFFFFFFFF = 0x00000001) ∧
  (∀ (v : Word) (ch : Byte),
    decode v = .ok (.pushd ch) ↔ v &&& 0xFFFF00FF = 0x00000002 ∧ ch = v.extractLsb' 8 8) ∧
  (∀ (v : Word) (ch : Byte),
    decode v = .ok (.pushg ch) ↔ v &&& 0xFFFF00FF = 0x00000003 ∧ ch = v.extractLsb' 8 8) ∧
  (∀ v : Word, decode v = .ok .compute ↔ v &&& 0xFFFFFFFF = 0x00000004) ∧
  (∀ (v : Word) (idx : Index),
    decode v = .ok (.sel idx) ↔ v &&& 0x0000FFFF = 0x00000005 ∧ idx = v.extractLsb' 16 16) ∧
  (∀ v : Word, ∀ r ∈ opcodeTable, ∀ r' ∈ opcodeTable, r.covers v = true → r'.covers v = true → r = r') ∧
  (decode 0x00003002 = .ok (.pushd 0x30) ∧ decode 0x00003102 = .ok (.pushd 0x31) ∧
   decode 0x00003003 = .ok (.pushg 0x30) ∧ decode 0x00003103 = .ok (.pushg 0x31) ∧
   decode 0x00030005 = .ok (.sel 3))

/-- Which words spell no command, and which of R87's two reasons holds for each (R81, R87, R89); that the decoder tells
the two apart is the model's choice (assumption 20). -/
def Obligations.IllegalWordsRejectedByReason : Prop :=
  ∀ v : Word,
    (decode v = .error .reservedOpcode ↔ 6 ≤ (v.extractLsb' 0 4).toNat) ∧
    (decode v = .error .reservedBitSet ↔
      ((v.extractLsb' 0 4 = 0 ∨ v.extractLsb' 0 4 = 1 ∨ v.extractLsb' 0 4 = 4) ∧ v.extractLsb' 4 28 ≠ 0) ∨
      ((v.extractLsb' 0 4 = 2 ∨ v.extractLsb' 0 4 = 3) ∧
        (v.extractLsb' 16 16 ≠ 0 ∨ v.extractLsb' 4 4 ≠ 0)) ∨
      (v.extractLsb' 0 4 = 5 ∧ v.extractLsb' 4 12 ≠ 0))

/-- Words written out from R86's patterns, and their decoding (95_test_vectors.md section 2.5); the two reasons of an
illegal word are the model's (assumption 20). -/
def Obligations.ListedWordsDecode : Prop :=
  decode 0x00000000 = .ok .nop ∧ decode 0x00000001 = .ok .clear ∧ decode 0x00000002 = .ok (.pushd 0x00) ∧
  decode 0x00003202 = .ok (.pushd 0x32) ∧ decode 0x00000004 = .ok .compute ∧ decode 0x00000005 = .ok (.sel 0) ∧
  decode 0xFFFF0005 = .ok (.sel 0xFFFF) ∧
  decode 0x00000006 = .error .reservedOpcode ∧ decode 0x0000000F = .error .reservedOpcode ∧
  decode 0x00000010 = .error .reservedBitSet ∧ decode 0x00000015 = .error .reservedBitSet ∧
  decode 0x00003112 = .error .reservedBitSet ∧ decode 0x00013102 = .error .reservedBitSet ∧
  decode 0x80000000 = .error .reservedBitSet

/-! ### Reset -/

/-- R43's two columns, for every legal instance: what every element holds after reset, what CLEAR leaves of it when it
runs in IDLE, and that no host access observes the unspecified contents. -/
def Obligations.ResetAndClearValues : Prop :=
  ∀ c : Config, c.Legal →
    ((State.resetFor c).dlen = 0 ∧ (State.resetFor c).glen = 0 ∧ (State.resetFor c).rlen = 0 ∧
      (State.resetFor c).ridx = 0 ∧ (State.resetFor c).phase = .idle ∧
      (State.resetFor c).rvalid = false ∧ (State.resetFor c).rzero = false ∧
      (State.resetFor c).errcode = .none ∧ (State.resetFor c).invch = false ∧
      (State.resetFor c).dovf = false ∧ (State.resetFor c).govf = false ∧ (State.resetFor c).cmdlost = false ∧
      (∀ i, Cells.get (State.resetFor c).data i = none ∧ Cells.get (State.resetFor c).gen i = none ∧
        Cells.get (State.resetFor c).work i = none ∧ Cells.get (State.resetFor c).rem i = none) ∧
      regRead (State.resetFor c) (some .cap) = some (BitVec.ofNat 32 c.maxBits) ∧
      ∀ r ∈ [Reg.status, .dlen, .glen, .rlen, .ridx, .remch, .framech],
        regRead (State.resetFor c) (some r) = some 0) ∧
    (∀ s : State, s.cfg = c → s.phase = .idle → ∃ t, exec .clear s = .next t ∧
      t.dlen = 0 ∧ t.glen = 0 ∧ t.rlen = 0 ∧ t.ridx = 0 ∧ t.phase = .idle ∧ t.rvalid = false ∧
      t.rzero = false ∧ t.errcode = .none ∧ t.invch = false ∧ t.dovf = false ∧ t.govf = false ∧
      t.cmdlost = false ∧ t.data = s.data ∧ t.gen = s.gen ∧ t.work = s.work ∧ t.rem = s.rem ∧
      t.scanI = s.scanI ∧ regRead t (some .cap) = some (BitVec.ofNat 32 c.maxBits) ∧
      ∀ r ∈ [Reg.status, .dlen, .glen, .rlen, .ridx, .remch, .framech], regRead t (some r) = some 0) ∧
    (∀ (data gen work rem : Cells) (k : Nat) (slot : Option Reg),
      regRead { State.resetFor c with data := data, gen := gen, work := work, rem := rem, scanI := k } slot =
        regRead (State.resetFor c) slot)

/-- The reset state of every legal instance meets the invariant, and so does the instance `State.reset` names. -/
def Obligations.ResetMeetsInvariant : Prop :=
  (∀ c : Config, c.Legal → (State.resetFor c).Inv) ∧ State.reset.Inv

/-- Reset, whatever the block is doing and whatever access coincides with it, leaves every element at its reset value
in one step (R230). `SCAN_I` after reset is unspecified, so it is not stated; what a coinciding read returns is not
stated either. Two points are the model's: that a loss of power or clock is a step with the same effect (assumption 13,
read from R220), and that an access which coincides with reset is given up whole, also one that R62 would refuse
(assumption 23). -/
def Obligations.ResetWinsFromAnyState : Prop :=
  (∀ (s : State) (rest : List Event) (coinciding : Option Access), s.pending = .reset coinciding :: rest →
    ∃ k answers draws, step s = .next { State.resetFor s.cfg with
      scanI := k, pending := rest, answers := answers, draws := draws }) ∧
  (∀ (s : State) (rest : List Event), s.pending = .powerLoss :: rest →
    ∃ k, step s = .next { State.resetFor s.cfg with
      scanI := k, pending := rest, answers := s.answers, draws := s.draws })

/-- To the host, a CLEAR leaves the block as a reset does, and the block is then ready (R231). -/
def Obligations.ClearMatchesReset : Prop :=
  ∀ s t : State, s.Inv → s.phase = .idle → exec .clear s = .next t →
    t.sameForHost { State.resetFor s.cfg with
      pending := s.pending, answers := s.answers, draws := s.draws } ∧
    t.busy = false ∧ t.dlen = 0 ∧ t.glen = 0

/-! ### The invariant and whole runs -/

/-- Every step keeps the invariant, and with it the four points of R32. -/
def Obligations.StepKeepsInvariant : Prop :=
  ∀ s t : State, s.Inv → step s = .next t → t.Inv ∧ t.SpecInvariants

/-- From every state that meets the invariant no run ever reads a cell without a value or writes outside a buffer, and
a run whose accesses are all admitted never stops. -/
def Obligations.InvariantRunsNeverFault : Prop :=
  ∀ (s : State) (k : Nat), s.Inv →
    s.safeFor k ∧ (s.admissible → ∃ t, run k s = .next t ∧ t.Inv)

/-- Every run ends: at most `MAX_BITS + 1` steps after the environment's events are used up the block is idle (R133,
R239, R240), and within that bound the run comes by a first state at which it has ended, the one whose registers are
its final observation (R240). That a run whose events are used up then stays as it is, the clause `step t = .next t`, is
the model's choice (assumption 5). -/
def Obligations.EveryRunEnds : Prop :=
  ∀ (s : State) (k : Nat), s.Inv → s.admissible → s.pending.length + s.cfg.maxBits + 1 ≤ k →
    (∃ t, run k s = .next t ∧ t.pending = [] ∧ t.ended ∧ step t = .next t) ∧
    (∃ n u, n ≤ k ∧ run n s = .next u ∧ u.ended ∧ runToEnd k s = .next u ∧ u.Inv ∧
      ∀ m < n, ∀ v, run m s = .next v → ¬v.ended)

/-- R240: a state in SCAN is never final, its sequencer has an enabled step, and neither is one before an access of the
host's; any other has ended whatever is still to come; and from an ended state nothing but a reset changes an element of
the block, its registers or what the host has read. That an idle slot and a state with nothing to come then have a step
at all is the model's choice (assumption 5), and so is that an access which coincides with reset is the host's
(assumption 24). -/
def Obligations.EndedRunKeepsItsObservation : Prop :=
  (∀ s : State, s.phase = .scan → ¬s.ended ∧ (s.Inv → ∃ t, sequencerStep s = .next t ∧ t ≠ s)) ∧
  (∀ (s : State) (a : Access), .access a ∈ s.pending ∨ .reset (some a) ∈ s.pending → ¬s.ended) ∧
  (∀ s : State, s.phase = .idle → (∀ e ∈ s.pending, e = .sequencer ∨ e = .reset none ∨ e = .powerLoss) → s.ended) ∧
  (∀ s : State, s.ended → ∃ t, step s = .next t ∧ t.ended ∧ t.pending = s.pending.tail ∧
    (s.resets ∨ t = { s with pending := t.pending } ∧ t.observation = s.observation))

/-- R239, weak fairness, whatever the host does: a computation that runs is taken on by its sequencer, or reset, before
what is pending is used up, refused accesses and a stuck host included; and after at most as many steps as events are
pending and `MAX_BITS + 1` more it is idle. That a schedule is a finite list is the model's choice (assumptions 4 and 5). -/
def Obligations.SequencerRunsWhateverTheHostDoes : Prop :=
  ∀ s : State, s.Inv → s.phase = .scan →
    (∃ k u, k ≤ s.pending.length ∧ run k s = .next u ∧ u.phase = .scan ∧ (u.sequences ∨ u.resets)) ∧
    (∃ k t, k ≤ s.pending.length + s.cfg.maxBits + 1 ∧ run k s = .next t ∧ t.phase = .idle ∧ t.Inv)

/-- What no rule reads never matters: two states that are the same for the host stay so, answer alike and stop alike,
for every schedule (R43, R46). -/
def Obligations.UnreadableCellsNeverMatter : Prop :=
  ∀ (s s' : State) (k : Nat), s.Inv → s'.Inv → s.sameForHost s' →
    (∀ t, run k s = .next t →
      ∃ t', run k s' = .next t' ∧ t.sameForHost t' ∧ t'.answers = t.answers ∧
        ∀ slot, regRead t' slot = regRead t slot) ∧
    (∀ r, run k s = .refused r → run k s' = .refused r)

/-! ### The port -/

/-- A step whose next event writes a command word to CMD, in IDLE, executes the decoded command on the state with that
event taken away; the word decodes to `i`. Nothing else surrounds `exec`: the block has no program counter. -/
def Obligations.StepRunsDecodedCommand : Prop :=
  ∀ (s : State) (v : Word) (i : Instr) (rest : List Event),
    s.phase = .idle → s.pending = cmdWrite s.cfg v :: rest → decode v = .ok i →
    step s = exec i { s with pending := rest }

/-- R88: while busy the word is not decoded and only `CMDLOST` is set; otherwise the decoded command is executed, and
an illegal word records its error. R209: so an illegal word written while busy records nothing else. -/
def Obligations.DispatchTestsBusyFirst : Prop :=
  (∀ v : Word, lostWhileBusy v) ∧
  (∀ (s : State) (v : Word) (rest : List Event), s.phase = .idle → s.pending = cmdWrite s.cfg v :: rest →
    (∀ i, decode v = .ok i → step s = exec i { s with pending := rest }) ∧
    (∀ e, decode v = .error e → step s = .next { s with pending := rest, errcode := .illegalCommand }))

/-- R172: a word that spells no command, written in IDLE, sets `ERRCODE` to 4, whatever it was, and changes nothing
else, so a result on display stays readable; CLEAR or an accepted COMPUTE sets it back; written while busy the word
sets `CMDLOST` only. -/
def Obligations.IllegalWordRecordsError : Prop :=
  ∀ (v : Word) (e : DecodeReject), decode v = .error e →
    lostWhileBusy v ∧
    ∀ (s : State) (rest : List Event), s.phase = .idle → s.pending = cmdWrite s.cfg v :: rest →
      ∃ t, step s = .next t ∧ t = { s with pending := rest, errcode := .illegalCommand } ∧
        t.errcode.code = 4 ∧ t.err = true ∧
        (∀ r ∈ [Reg.rlen, .remch, .framech], regRead t (some r) = regRead s (some r)) ∧
        (∃ u, exec .clear t = .next u ∧ u.errcode = .none) ∧
        (∀ u, exec .compute t = .next u → u.phase = .scan → u.errcode = .none)

/-- R62: which accesses are admitted; every other one is refused: no step ever performs it; and an admitted one is
never refused. That a refused access stays before the port through every step, a reset taken past it among them, and
that the host has then read nothing, is the model's choice (assumption 10). What else moves while it stands there, and
what becomes of the block, is `RefusedAccessStopsOnlyTheHost`. -/
def Obligations.OnlyAlignedWordsAdmitted : Prop :=
  (∀ (c : Config) (a : Access), accessRefusal c a = none ↔
    accessWidth a = 4 ∧ accessIsBurst a = false ∧
      ∃ off, off % 4 = 0 ∧ off ≤ 0x3C ∧ accessAddr a = c.base + off) ∧
  (∀ (s : State) (a : Access) (rest : List Event), s.pending = .access a :: rest →
    (accessRefusal s.cfg a ≠ none → ∀ t, step s = .next t →
      t.answers = s.answers ∧ ∃ rest', t.pending = .access a :: rest') ∧
    (accessRefusal s.cfg a = none → ∀ r, step s ≠ .refused r))

/-- R62 and R239 together: a refused access leaves the host stuck and nothing else. While a computation runs the
sequencer goes on although the host is stuck; the sequencer slots and resets that stand behind the refused access are
taken, and the host's accesses stay; only before an idle block with nothing else pending is there no next state. That
a stuck host is a refusal there, and that a reset taken past it coincides with no access, is the model's choice
(assumption 10). -/
def Obligations.RefusedAccessStopsOnlyTheHost : Prop :=
  ∀ (s : State) (a : Access) (rest : List Event), s.pending = .access a :: rest → accessRefusal s.cfg a ≠ none →
    ((∀ e ∈ rest, isAccess e = true) →
      (s.phase = .scan → step s = sequencerStep s) ∧ (s.phase = .idle → ∃ r, step s = .refused r)) ∧
    (∀ (accs more : List Event) (e : Event), rest = accs ++ e :: more → (∀ x ∈ accs, isAccess x = true) →
      isAccess e = false →
      step s = runEvent (withoutHost e) { s with pending := .access a :: (accs ++ more) })

/-- R65: a write at offset 0 dispatches the command word, a write at any other offset of the window changes nothing
and records nothing. -/
def Obligations.WritesActOnlyOnCmd : Prop :=
  ∀ (s : State) (off : Nat) (v : Word) (rest : List Event), off % 4 = 0 → off ≤ 0x3C →
    s.pending = .access (writeAt s.cfg off v) :: rest →
    (off = 0x00 → step s = dispatchCommand v { s with pending := rest }) ∧
    (off ≠ 0x00 → step s = .next { s with pending := rest })

/-- R64: a read gives the register's value at that step and changes no element of the block, and two reads with no
step between them return the same value. Every read has a value. What a read returns stands at the end of `answers`
(assumption 6). -/
def Obligations.ReadsChangeNothing : Prop :=
  ∀ (s : State) (off : Nat) (rest : List Event), s.Inv → off % 4 = 0 → off ≤ 0x3C →
    ∃ v, regRead s (regAt off) = some v ∧
      (s.pending = .access (readAt s.cfg off) :: rest →
        step s = .next { s with pending := rest, answers := s.answers ++ [v] }) ∧
      (s.pending = .access (readAt s.cfg off) :: .access (readAt s.cfg off) :: rest →
        run 2 s = .next { s with pending := rest, answers := s.answers ++ [v, v] })

/-! ### The registers -/

/-- STATUS bit by bit: BUSY, RVALID, ERR, RZERO, ERRCODE, INVCH, DOVF, GOVF, CMDLOST, and 0 in bits [31:12]
(R27, R29, R35, R201); that no code above 4 is read rests on the model's type of codes (assumption 16). -/
def Obligations.StatusShowsEveryFlag : Prop :=
  ∀ s : State, ∃ v, regRead s (some .status) = some v ∧
    (v.getLsbD 0 = true ↔ s.phase = .scan) ∧ v.getLsbD 1 = s.rvalid ∧
    (v.getLsbD 2 = true ↔ v.extractLsb' 4 4 ≠ 0) ∧ v.getLsbD 3 = s.rzero ∧
    (v.extractLsb' 4 4 = 0 ↔ s.errcode = .none) ∧ (v.extractLsb' 4 4 = 1 ↔ s.errcode = .invalidCharacter) ∧
    (v.extractLsb' 4 4 = 2 ↔ s.errcode = .emptyInput) ∧ (v.extractLsb' 4 4 = 3 ↔ s.errcode = .inputTooLong) ∧
    (v.extractLsb' 4 4 = 4 ↔ s.errcode = .illegalCommand) ∧ v.extractLsb' 4 4 ≤ 4 ∧
    v.getLsbD 8 = s.invch ∧ v.getLsbD 9 = s.dovf ∧ v.getLsbD 10 = s.govf ∧ v.getLsbD 11 = s.cmdlost ∧
    v.extractLsb' 12 20 = 0

/-- CAP, DLEN, GLEN, RLEN and RIDX read their element zero-extended, with 0 in bits [31:16]; RLEN reads `GLEN - 1`
with a result and 0 without one (R36 to R40). -/
def Obligations.LengthRegistersRead : Prop :=
  ∀ s : State, s.Inv →
    (∃ v, regRead s (some .cap) = some v ∧ v.toNat = s.cfg.maxBits ∧ v.extractLsb' 16 16 = 0) ∧
    (∃ v, regRead s (some .dlen) = some v ∧ v.toNat = s.dlen ∧ v.extractLsb' 16 16 = 0) ∧
    (∃ v, regRead s (some .glen) = some v ∧ v.toNat = s.glen ∧ v.extractLsb' 16 16 = 0) ∧
    (∃ v, regRead s (some .rlen) = some v ∧ v.toNat = s.rlen ∧ v.extractLsb' 16 16 = 0 ∧
      v.toNat = if s.rvalid then s.glen - 1 else 0) ∧
    (∃ v, regRead s (some .ridx) = some v ∧ v.toNat = s.ridx.toNat ∧ v.extractLsb' 16 16 = 0)

/-- The slots at 0x24 to 0x3C read 0 and ignore writes, and CMD reads 0 (R34, R44). -/
def Obligations.ReservedSlotsReadZero : Prop :=
  ∀ s : State, regRead s (regAt 0x00) = some 0 ∧
    ∀ off ∈ [0x24, 0x28, 0x2C, 0x30, 0x34, 0x38, 0x3C],
      regRead s (regAt off) = some 0 ∧
      ∀ (v : Word) (rest : List Event), s.pending = .access (writeAt s.cfg off v) :: rest →
        step s = .next { s with pending := rest }

/-- R152: REMCH reads CVALID and the character of remainder bit `RIDX` where that bit exists, and 0 elsewhere. -/
def Obligations.RemchReadsRemainder : Prop :=
  ∀ s : State, s.Inv →
    (s.rvalid = true → s.ridx.toNat < s.rlen →
      ∃ r b, s.remBits = some r ∧ r[s.ridx.toNat]? = some b ∧
        regRead s (some .remch) = some (if b then 0x00000131 else 0x00000130)) ∧
    (¬(s.rvalid = true ∧ s.ridx.toNat < s.rlen) → regRead s (some .remch) = some 0x00000000)

/-- R151 and R153: with a result the frame is the data followed by the remainder, of length `DLEN + GLEN - 1` and
within `MAX_BITS`; FRAMECH reads its bit `RIDX` where that bit exists and 0 elsewhere; without a result there is no
frame and it reads 0. -/
def Obligations.FramechReadsFrame : Prop :=
  ∀ s : State, s.Inv →
    (s.rvalid = true → ∃ d r f, s.dataBits = some d ∧ s.remBits = some r ∧ s.frame = some f ∧ f = d ++ r ∧
      f.length = s.dlen + s.rlen ∧ f.length = s.dlen + s.glen - 1 ∧ f.length ≤ s.cfg.maxBits ∧
      regRead s (some .framech) =
        match f[s.ridx.toNat]? with
        | some b => some (if b then 0x00000131 else 0x00000130)
        | none => some 0x00000000) ∧
    (s.rvalid = false → s.frame = none ∧ regRead s (some .framech) = some 0x00000000)

/-- R103 and R154: only 0x30 and 0x31 are characters, and reading a character out inverts reading it in. -/
def Obligations.CharactersAreZeroAndOne : Prop :=
  chr2bit 0x30 = some false ∧ chr2bit 0x31 = some true ∧
  (∀ ch : Byte, ch ≠ 0x30 → ch ≠ 0x31 → chr2bit ch = none) ∧
  bit2chr false = 0x30 ∧ bit2chr true = 0x31 ∧ ∀ b : Bit, chr2bit (bit2chr b) = some b

/-- R236 and R235: during a computation every register reads a defined value and none shows a result; and whenever
there is no result, RLEN, REMCH and FRAMECH read 0. -/
def Obligations.NoPartialResultIsRead : Prop :=
  ∀ s : State, s.Inv →
    (∀ slot, ∃ v, regRead s slot = some v) ∧
    (s.rvalid = false → ∀ r ∈ [Reg.rlen, .remch, .framech], regRead s (some r) = some 0) ∧
    (s.phase = .scan → s.rvalid = false ∧ ∃ v, regRead s (some .status) = some v ∧
      v.extractLsb' 0 8 = 0x01 ∧
      v.getLsbD 8 = s.invch ∧ v.getLsbD 9 = s.dovf ∧ v.getLsbD 10 = s.govf ∧ v.getLsbD 11 = s.cmdlost)

/-! ### The commands -/

/-- R170: the word 0 is NOP and changes nothing; any other word with opcode 0 is illegal; while busy NOP is lost like
every command. -/
def Obligations.NopChangesNothing : Prop :=
  (∀ s : State, exec .nop s = .next s) ∧ decode 0x00000000 = .ok .nop ∧
  (∀ v : Word, v.extractLsb' 0 4 = 0 → v ≠ 0x00000000 → ∃ e, decode v = .error e) ∧
  lostWhileBusy 0x00000000

/-- R171: CLEAR empties both inputs, withdraws the result and clears RIDX, ERRCODE and the four sticky flags; the
buffers' cells stay and are unreadable; STATUS then reads 0; while busy CLEAR is lost; and no other command clears
CMDLOST. -/
def Obligations.ClearEmptiesInputsAndFlags : Prop :=
  (∀ s : State, exec .clear s = .next { s with
      rvalid := false, rzero := false, rlen := 0, dlen := 0, glen := 0, ridx := 0, errcode := .none,
      invch := false, dovf := false, govf := false, cmdlost := false }) ∧
  (∀ s t : State, s.phase = .idle → exec .clear s = .next t →
    ∀ r ∈ [Reg.status, .dlen, .glen, .rlen, .ridx, .remch, .framech], regRead t (some r) = some 0) ∧
  (∀ (i : Instr) (s t : State), exec i s = .next t → s.cmdlost = true → t.cmdlost = false → i = .clear) ∧
  lostWhileBusy 0x00000001

/-- R101: PUSHD withdraws the result; an invalid byte sets INVCH and is dropped, even at a full buffer; a valid one at
a full buffer sets DOVF and is dropped; any other is appended as the next bit of the data. While busy it is lost. -/
def Obligations.PushdAppendsToData : Prop :=
  (∀ (s : State) (ch : Byte), ch ≠ 0x30 → ch ≠ 0x31 →
    exec (.pushd ch) s = .next { s with rvalid := false, rzero := false, rlen := 0, invch := true }) ∧
  (∀ (s : State) (b : Bool), s.dlen = s.cfg.maxBits →
    exec (.pushd (if b then 0x31 else 0x30)) s =
      .next { s with rvalid := false, rzero := false, rlen := 0, dovf := true }) ∧
  (∀ (s : State) (b : Bool), Memory.wf s → s.dlen < s.cfg.maxBits →
    ∃ t, exec (.pushd (if b then 0x31 else 0x30)) s = .next t ∧
      t = { s with
        rvalid := false, rzero := false, rlen := 0, data := s.data.set s.dlen (some b), dlen := s.dlen + 1 } ∧
      Cells.get t.data s.dlen = some b ∧
      ∀ d, s.dataBits = some d → t.dataBits = some (d ++ [b])) ∧
  (∀ ch : Byte, lostWhileBusy (encode (.pushd ch)))

/-- R102: PUSHG, as PUSHD for the generator and GOVF. -/
def Obligations.PushgAppendsToGenerator : Prop :=
  (∀ (s : State) (ch : Byte), ch ≠ 0x30 → ch ≠ 0x31 →
    exec (.pushg ch) s = .next { s with rvalid := false, rzero := false, rlen := 0, invch := true }) ∧
  (∀ (s : State) (b : Bool), s.glen = s.cfg.maxBits →
    exec (.pushg (if b then 0x31 else 0x30)) s =
      .next { s with rvalid := false, rzero := false, rlen := 0, govf := true }) ∧
  (∀ (s : State) (b : Bool), Memory.wf s → s.glen < s.cfg.maxBits →
    ∃ t, exec (.pushg (if b then 0x31 else 0x30)) s = .next t ∧
      t = { s with
        rvalid := false, rzero := false, rlen := 0, gen := s.gen.set s.glen (some b), glen := s.glen + 1 } ∧
      Cells.get t.gen s.glen = some b ∧
      ∀ g, s.genBits = some g → t.genBits = some (g ++ [b])) ∧
  (∀ ch : Byte, lostWhileBusy (encode (.pushg ch)))

/-- R104: an interleaving of PUSHD and PUSHG commands matters only in the order of the PUSHDs among themselves and of
the PUSHGs among themselves: the whole state comes out the same. -/
def Obligations.LoadingOrderIsIrrelevant : Prop :=
  ∀ (s : State) (l l' : List Instr), Memory.wf s → s.dlen ≤ s.cfg.maxBits → s.glen ≤ s.cfg.maxBits →
    (∀ i ∈ l, isPushd i = true ∨ isPushg i = true) → (∀ i ∈ l', isPushd i = true ∨ isPushg i = true) →
    l.filter isPushd = l'.filter isPushd → l.filter isPushg = l'.filter isPushg →
    ∃ t, execAll l s = .next t ∧ execAll l' s = .next t

/-- R125 and R126: COMPUTE withdraws the result; when validation fails it records the first error that applies and
nothing else changes; when it succeeds ERRCODE becomes NONE, the augmented message is in WORK, and the scan starts at
position 0. While busy it is lost. -/
def Obligations.ComputeValidatesAndStarts : Prop :=
  (∀ s : State, s.invch = true →
    exec .compute s = .next { s with
      rvalid := false, rzero := false, rlen := 0, errcode := .invalidCharacter }) ∧
  (∀ s : State, s.invch = false → s.dlen = 0 ∨ s.glen = 0 →
    exec .compute s = .next { s with rvalid := false, rzero := false, rlen := 0, errcode := .emptyInput }) ∧
  (∀ s : State, s.invch = false → 1 ≤ s.dlen → 1 ≤ s.glen →
    s.dovf = true ∨ s.govf = true ∨ s.cfg.maxBits < s.dlen + s.glen - 1 →
    exec .compute s = .next { s with rvalid := false, rzero := false, rlen := 0, errcode := .inputTooLong }) ∧
  (∀ (s : State) (d : Bitstring), Memory.wf s → s.dataBits = some d →
    s.invch = false → 1 ≤ s.dlen → 1 ≤ s.glen → s.dovf = false → s.govf = false →
    s.dlen + s.glen - 1 ≤ s.cfg.maxBits →
    ∃ work, exec .compute s = .next { s with
        rvalid := false, rzero := false, rlen := 0, errcode := .none, work := work, scanI := 0,
        phase := .scan } ∧
      work.length = s.cfg.maxBits ∧
      Cells.slice work 0 (s.dlen + s.glen - 1) = some (d ++ List.replicate (s.glen - 1) false) ∧
      ∀ j, s.dlen + s.glen - 1 ≤ j → Cells.get work j = Cells.get s.work j) ∧
  lostWhileBusy 0x00000004

/-- R202 to R204 and R208 as the host sees them: after a rejected COMPUTE, STATUS shows the code of the first error in
the order INVALID_CHARACTER, EMPTY_INPUT, INPUT_TOO_LONG, with ERR set, not busy and without a result, and the inputs
and the sticky flags still show the causes. -/
def Obligations.ComputeErrorsInPriorityOrder : Prop :=
  ∀ (s : State) (rest : List Event), s.phase = .idle →
    s.pending = cmdWrite s.cfg 0x00000004 :: rest →
    s.invch = true ∨ s.dlen = 0 ∨ s.glen = 0 ∨ s.dovf = true ∨ s.govf = true ∨
      s.cfg.maxBits < s.dlen + s.glen - 1 →
    ∃ t v, step s = .next t ∧ regRead t (some .status) = some v ∧
      v.extractLsb' 4 4 = (if s.invch then 1 else if s.dlen = 0 ∨ s.glen = 0 then 2 else 3) ∧
      v.extractLsb' 0 4 = 0x4 ∧
      v.getLsbD 8 = s.invch ∧ v.getLsbD 9 = s.dovf ∧ v.getLsbD 10 = s.govf ∧
      t.dlen = s.dlen ∧ t.glen = s.glen ∧ t.data = s.data ∧ t.gen = s.gen ∧ t.work = s.work

/-- R150: SEL sets RIDX, and nothing else changes; a following read of RIDX returns the index; while busy it is
lost. -/
def Obligations.SelSetsReadIndex : Prop :=
  (∀ (s : State) (idx : Index), ∃ t, exec (.sel idx) s = .next t ∧ t = { s with ridx := idx } ∧
    regRead t (some .ridx) = some (idx.setWidth 32)) ∧
  (∀ idx : Index, lostWhileBusy (encode (.sel idx)))

/-- Reading the remainder and the frame out: with a result, after SEL k REMCH reads remainder bit k for every k, and
FRAMECH reads frame bit k (R150 to R155). -/
def Obligations.SelectThenReadGivesEachBit : Prop :=
  ∀ (s : State) (idx : Index), s.Inv → s.rvalid = true →
    ∃ d g t, s.dataBits = some d ∧ s.genBits = some g ∧ exec (.sel idx) s = .next t ∧
      regRead t (some .remch) = some
        (match (crc d g)[idx.toNat]? with
         | some b => if b then 0x131 else 0x130
         | none => 0) ∧
      regRead t (some .framech) = some
        (match (d ++ crc d g)[idx.toNat]? with
         | some b => if b then 0x131 else 0x130
         | none => 0)

/-! ### Frames -/

/-- The frame of PUSHD and PUSHG: every element but the result flags, RLEN, INVCH and the instruction's own buffer,
length and overflow flag is unchanged, and so is every cell of that buffer but the one at the old length, which is
unchanged too unless the length moved (R101, R102). -/
def Obligations.PushFrame : Prop :=
  (∀ (ch : Byte) (s t : State), exec (.pushd ch) s = .next t →
    t.cfg = s.cfg ∧ t.gen = s.gen ∧ t.glen = s.glen ∧ t.work = s.work ∧ t.rem = s.rem ∧ t.ridx = s.ridx ∧
    t.phase = s.phase ∧ t.scanI = s.scanI ∧ t.errcode = s.errcode ∧ t.govf = s.govf ∧
    t.cmdlost = s.cmdlost ∧ t.pending = s.pending ∧ t.answers = s.answers ∧ t.draws = s.draws ∧
    (∀ j, j ≠ s.dlen ∨ t.dlen = s.dlen → Cells.get t.data j = Cells.get s.data j)) ∧
  (∀ (ch : Byte) (s t : State), exec (.pushg ch) s = .next t →
    t.cfg = s.cfg ∧ t.data = s.data ∧ t.dlen = s.dlen ∧ t.work = s.work ∧ t.rem = s.rem ∧ t.ridx = s.ridx ∧
    t.phase = s.phase ∧ t.scanI = s.scanI ∧ t.errcode = s.errcode ∧ t.dovf = s.dovf ∧
    t.cmdlost = s.cmdlost ∧ t.pending = s.pending ∧ t.answers = s.answers ∧ t.draws = s.draws ∧
    (∀ j, j ≠ s.glen ∨ t.glen = s.glen → Cells.get t.gen j = Cells.get s.gen j))

/-- The frame of COMPUTE: every element but the result flags, RLEN, ERRCODE and, where it is accepted, WORK, SCAN_I
and PHASE is unchanged, and so is every cell of WORK outside the augmented message (R126). -/
def Obligations.ComputeFrame : Prop :=
  ∀ s t : State, exec .compute s = .next t →
    t.cfg = s.cfg ∧ t.data = s.data ∧ t.dlen = s.dlen ∧ t.gen = s.gen ∧ t.glen = s.glen ∧ t.rem = s.rem ∧
    t.ridx = s.ridx ∧ t.invch = s.invch ∧ t.dovf = s.dovf ∧ t.govf = s.govf ∧ t.cmdlost = s.cmdlost ∧
    t.pending = s.pending ∧ t.answers = s.answers ∧ t.draws = s.draws ∧
    (∀ j, s.dlen + (s.glen - 1) ≤ j → Cells.get t.work j = Cells.get s.work j) ∧
    (t.errcode ≠ .none → t.work = s.work ∧ t.scanI = s.scanI ∧ t.phase = s.phase)

/-- The frame of NOP, CLEAR and SEL: no cell of a buffer changes; NOP changes nothing, SEL only RIDX, CLEAR only what
R171 lists (R150, R170, R171). -/
def Obligations.ControlFrame : Prop :=
  ∀ (i : Instr) (s t : State), exec i s = .next t →
    (i = .nop → t = s) ∧
    (∀ idx, i = .sel idx → t = { s with ridx := t.ridx }) ∧
    (i = .clear → t.cfg = s.cfg ∧ t.work = s.work ∧ t.rem = s.rem ∧ t.phase = s.phase ∧ t.scanI = s.scanI ∧
      t.pending = s.pending ∧ t.answers = s.answers ∧ t.draws = s.draws ∧
      ∀ j, Cells.get t.data j = Cells.get s.data j ∧ Cells.get t.gen j = Cells.get s.gen j)

/-! ### The sequencer -/

/-- R127: in SCAN below DLEN the sequencer XORs the window at SCAN_I with the generator under the lead bit, moves
SCAN_I by one, and changes nothing else, no register in particular. That a sequencer slot in IDLE, where no step is
enabled, changes nothing, the first clause, is the model's choice (assumption 5). -/
def Obligations.ScanStepXorsWindow : Prop :=
  (∀ s : State, s.phase = .idle → sequencerStep s = .next s) ∧
  (∀ s : State, s.Inv → s.phase = .scan → s.scanI < s.dlen →
    ∃ g w lead work, s.genBits = some g ∧ Cells.slice s.work s.scanI s.glen = some w ∧
      Cells.get s.work s.scanI = some lead ∧
      sequencerStep s = .next { s with work := work, scanI := s.scanI + 1 } ∧
      Cells.slice work s.scanI s.glen = some (if lead then List.zipWith xor w g else w) ∧
      (∀ j, j < s.scanI ∨ s.scanI + s.glen ≤ j → Cells.get work j = Cells.get s.work j) ∧
      s.scanI + s.glen - 1 < s.cfg.maxBits ∧
      ∀ slot, regRead { s with work := work, scanI := s.scanI + 1 } slot = regRead s slot)

/-- R128: in SCAN at DLEN the sequencer latches the remainder, sets RLEN, RZERO and RVALID and goes to IDLE; nothing
else changes; an empty remainder has RZERO 1. -/
def Obligations.FinishStepLatchesRemainder : Prop :=
  ∀ s : State, s.Inv → s.phase = .scan → s.scanI = s.dlen →
    ∃ r rem, Cells.slice s.work s.dlen (s.glen - 1) = some r ∧
      sequencerStep s = .next { s with
        rem := rem, rlen := s.glen - 1, rzero := decide (true ∉ r), rvalid := true, phase := .idle } ∧
      Cells.slice rem 0 (s.glen - 1) = some r ∧
      (∀ j, s.glen - 1 ≤ j → Cells.get rem j = Cells.get s.rem j) ∧
      s.errcode = .none

/-- R129: an accepted COMPUTE takes exactly `DLEN + 1` internal steps, whatever the host does meanwhile at the port
(but for a reset): after `DLEN` of them, in any interleaving with admitted accesses, it still runs on unchanged
inputs, and the next one ends it with the remainder `crc(DATA, GEN)` of R120. -/
def Obligations.ComputeEndsWithCrc : Prop :=
  ∀ (s t : State) (evs rest : List Event), s.Inv → s.phase = .idle → exec .compute s = .next t → t.phase = .scan →
    (∀ e ∈ evs, e = .sequencer ∨ ∃ a, e = .access a ∧ accessRefusal s.cfg a = none) →
    evs.count .sequencer = s.dlen →
    ∃ d g u w, s.dataBits = some d ∧ s.genBits = some g ∧
      run evs.length { t with pending := evs ++ .sequencer :: rest } = .next u ∧
      u.phase = .scan ∧ u.rvalid = false ∧ u.data = s.data ∧ u.dlen = s.dlen ∧ u.gen = s.gen ∧
      u.glen = s.glen ∧
      step u = .next w ∧ w.phase = .idle ∧ w.rvalid = true ∧ w.errcode = .none ∧ w.pending = rest ∧
      w.rlen = s.glen - 1 ∧ w.remBits = some (crc d g) ∧ w.rzero = decide (true ∉ crc d g) ∧
      w.dataBits = some d ∧ w.genBits = some g

/-- What the block is for (R2, R91's `crc`): from any idle state, CLEAR, the characters of `d`, the characters of `g`
and COMPUTE, followed by `|d| + 1` internal steps, leave `crc(d, g)` as the remainder and `d ++ crc(d, g)` as the
frame, for all inputs that fit. -/
def Obligations.LoadedInputsAreDivided : Prop :=
  ∀ (s : State) (d g : Bitstring), s.Inv → s.phase = .idle → 1 ≤ d.length → 1 ≤ g.length →
    d.length + g.length - 1 ≤ s.cfg.maxBits →
    ∃ t u,
      execAll (.clear :: ((d.map fun b => .pushd (bit2chr b)) ++ (g.map fun b => .pushg (bit2chr b)) ++
        [.compute])) s = .next t ∧
      t.phase = .scan ∧ run (d.length + 1) { t with pending := [] } = .next u ∧
      u.phase = .idle ∧ u.rvalid = true ∧ u.errcode = .none ∧ u.dlen = d.length ∧ u.glen = g.length ∧
      u.rlen = g.length - 1 ∧ u.dataBits = some d ∧ u.genBits = some g ∧ u.remBits = some (crc d g) ∧
      u.frame = some (d ++ crc d g)

/-- A COMPUTE repeated on a result, with nothing pushed in between, gives the same result again (R126, R130 (b)). -/
def Obligations.RepeatedComputeAgrees : Prop :=
  ∀ s t : State, s.Inv → s.rvalid = true → exec .compute s = .next t → t.phase = .scan →
    t.rvalid = false ∧
    ∃ u, run (s.dlen + 1) { t with pending := [] } = .next u ∧
      u.rvalid = true ∧ u.remBits = s.remBits ∧ u.rlen = s.rlen ∧ u.rzero = s.rzero

/-- R234: a command written after an accepted COMPUTE without a busy check has two possible outcomes, by the schedule:
written before the sequencer finishes it is lost with CMDLOST set, written after it is dispatched. -/
def Obligations.BusyHazardHasBothOutcomes : Prop :=
  ∀ (s : State) (v : Word) (rest : List Event), s.Inv → s.phase = .idle → validate s = .none →
    (s.pending = cmdWrite s.cfg 0x00000004 :: cmdWrite s.cfg v :: rest →
      ∃ u, run 2 s = .next u ∧ u.cmdlost = true ∧ u.phase = .scan ∧
        u.data = s.data ∧ u.gen = s.gen ∧ u.pending = rest) ∧
    (s.pending = cmdWrite s.cfg 0x00000004 ::
        (List.replicate (s.dlen + 1) .sequencer ++ cmdWrite s.cfg v :: rest) →
      ∃ u, run (s.dlen + 2) s = .next u ∧ u.cmdlost = s.cmdlost ∧
        u.phase = .idle ∧ u.rvalid = true ∧ step u = dispatchCommand v { u with pending := rest })

/-! ### The division as a function -/

/-- R121 and R14: the XOR engine works position by position; under lead 1 it XORs, under lead 0 it leaves the
window. -/
def Obligations.XorEngineIsBitwise : Prop :=
  ∀ (w g : Bitstring) (lead : Bit), w.length = g.length →
    (xeng w g lead).length = g.length ∧
    (∀ (j : Nat) (wj gj : Bit), w[j]? = some wj → g[j]? = some gj →
      (xeng w g lead)[j]? = some (xor wj (lead && gj))) ∧
    xeng w g true = List.zipWith xor w g ∧ xeng w g false = w

/-- R130 (a): the remainder has exactly `|g| - 1` bits. -/
def Obligations.RemainderLength : Prop :=
  ∀ d g : Bitstring, 1 ≤ d.length → 1 ≤ g.length → (crc d g).length = g.length - 1

/-- R130 (c) with R15: for a generator whose first bit is 1, `crc(d, g)` is the remainder of `d(x) x^(m-1)` by `g(x)`
over GF(2), and after the scan the first `n` positions of the working buffer are all 0. -/
def Obligations.RemainderIsPolynomialRemainder : Prop :=
  ∀ d g : Bitstring, 1 ≤ d.length → g.head? = some true →
    let poly : Bitstring → Polynomial (ZMod 2) := fun s =>
      ∑ i ∈ Finset.range s.length, if s.getD i false then Polynomial.X ^ (s.length - 1 - i) else 0
    poly (crc d g) = (poly d * Polynomial.X ^ (g.length - 1)) %ₘ poly g ∧
    (scanUpTo g (augment d g) d.length).take d.length = List.replicate d.length false

/-- R130 (d), the defining property of a CRC: dividing the transmitted frame gives the all-zero remainder. It is
stated for every generator, one with first bit 0 among them, for which the spec has only an enumeration. -/
def Obligations.FrameDividesToZero : Prop :=
  ∀ d g : Bitstring, 1 ≤ d.length → 1 ≤ g.length →
    crc (d ++ crc d g) g = List.replicate (g.length - 1) false

/-- R130 (e): the remainder is linear in the data. -/
def Obligations.RemainderIsLinear : Prop :=
  ∀ d₁ d₂ g : Bitstring, d₁.length = d₂.length → 1 ≤ d₁.length → 1 ≤ g.length →
    crc (List.zipWith xor d₁ d₂) g = List.zipWith xor (crc d₁ g) (crc d₂ g)

/-- R131: nothing is normalised. A generator of zeros gives the zero remainder, leading zeros of a generator are
divided by as they stand (`crc(1, 011) = 11`), and leading zeros of the data change nothing in the remainder. -/
def Obligations.GeneratorsAreNotNormalised : Prop :=
  (∀ (d : Bitstring) (m : Nat), 1 ≤ d.length → 1 ≤ m →
    crc d (List.replicate m false) = List.replicate (m - 1) false) ∧
  crc [true] [false, true, true] = [true, true] ∧
  (∀ d g : Bitstring, 1 ≤ d.length → 1 ≤ g.length → crc (false :: d) g = crc d g)

/-- R132: a generator of one bit gives the empty remainder, the scan flips every 1 under `1` and none under `0`, and
the block then ends with RLEN 0, RZERO 1 and RVALID 1. -/
def Obligations.OneBitGeneratorGivesEmptyRemainder : Prop :=
  (∀ (d : Bitstring) (b : Bit), 1 ≤ d.length →
    crc d [b] = [] ∧
    scanUpTo [b] (augment d [b]) d.length = if b then List.replicate d.length false else d) ∧
  (∀ s : State, s.Inv → s.phase = .scan → s.scanI = s.dlen → s.glen = 1 →
    ∃ t, sequencerStep s = .next t ∧ t.rlen = 0 ∧ t.rzero = true ∧ t.rvalid = true ∧ t.remBits = some [])

/-! ### Who changes what, over all steps -/

/-- R30 and R212: what sets each sticky flag, and that only CLEAR and reset clear one. -/
def Obligations.StickyFlagsSetAndCleared : Prop :=
  ∀ s t : State, step s = .next t →
    (s.invch = false → t.invch = true → ∃ ch, ch ≠ 0x30 ∧ ch ≠ 0x31 ∧
      (s.executes (.ok (.pushd ch)) ∨ s.executes (.ok (.pushg ch)))) ∧
    (s.dovf = false → t.dovf = true → s.dlen = s.cfg.maxBits ∧
      (s.executes (.ok (.pushd 0x30)) ∨ s.executes (.ok (.pushd 0x31)))) ∧
    (s.govf = false → t.govf = true → s.glen = s.cfg.maxBits ∧
      (s.executes (.ok (.pushg 0x30)) ∨ s.executes (.ok (.pushg 0x31)))) ∧
    (s.cmdlost = false → t.cmdlost = true → s.losesCommand) ∧
    ((s.invch = true ∧ t.invch = false) ∨ (s.dovf = true ∧ t.dovf = false) ∨
      (s.govf = true ∧ t.govf = false) ∨ (s.cmdlost = true ∧ t.cmdlost = false) →
      s.executes (.ok .clear) ∨ s.resets)

/-- R29 and R211: ERRCODE changes only by COMPUTE, an illegal command, CLEAR or reset, and ERR says that it is not
NONE. -/
def Obligations.ErrcodeChangesOnlyBy : Prop :=
  (∀ s t : State, step s = .next t → t.errcode ≠ s.errcode →
    s.executes (.ok .compute) ∨ (∃ e, s.executes (.error e)) ∨ s.executes (.ok .clear) ∨ s.resets) ∧
  (∀ s : State, s.err = true ↔ s.errcode ≠ .none)

/-- R21 to R26, R31: which steps write each element of the block, and that no step changes the instance's
parameters. -/
def Obligations.OnlyListedStepsWrite : Prop :=
  ∀ s t : State, step s = .next t →
    t.cfg = s.cfg ∧
    (t.data ≠ s.data → (∃ ch, s.executes (.ok (.pushd ch))) ∨ s.resets) ∧
    (t.dlen ≠ s.dlen → (∃ ch, s.executes (.ok (.pushd ch))) ∨ s.executes (.ok .clear) ∨ s.resets) ∧
    (t.gen ≠ s.gen → (∃ ch, s.executes (.ok (.pushg ch))) ∨ s.resets) ∧
    (t.glen ≠ s.glen → (∃ ch, s.executes (.ok (.pushg ch))) ∨ s.executes (.ok .clear) ∨ s.resets) ∧
    (t.work ≠ s.work → s.executes (.ok .compute) ∨ (s.sequences ∧ s.scanI < s.dlen) ∨ s.resets) ∧
    (t.rem ≠ s.rem → (s.sequences ∧ s.scanI = s.dlen) ∨ s.resets) ∧
    (t.rlen ≠ s.rlen → (s.sequences ∧ s.scanI = s.dlen) ∨
      (∃ ch, s.executes (.ok (.pushd ch)) ∨ s.executes (.ok (.pushg ch))) ∨ s.executes (.ok .clear) ∨
      s.executes (.ok .compute) ∨ s.resets) ∧
    (t.ridx ≠ s.ridx → (∃ idx, s.executes (.ok (.sel idx))) ∨ s.executes (.ok .clear) ∨ s.resets) ∧
    (t.phase ≠ s.phase ∨ t.scanI ≠ s.scanI → s.executes (.ok .compute) ∨ s.sequences ∨ s.resets)

/-- R28: RVALID and RZERO are set only by the finish step; they are cleared only by the commands that withdraw the
result and by reset (RZERO in every state that meets the invariant; in one that no run reaches, with RZERO set and no
result, the finish step may clear it). -/
def Obligations.ResultAppearsOnlyAtFinish : Prop :=
  ∀ s t : State, step s = .next t →
    ((s.rvalid = false ∧ t.rvalid = true) ∨ (s.rzero = false ∧ t.rzero = true) →
      s.sequences ∧ s.scanI = s.dlen) ∧
    (s.rvalid = true → t.rvalid = false →
      (∃ ch, s.executes (.ok (.pushd ch)) ∨ s.executes (.ok (.pushg ch))) ∨ s.executes (.ok .clear) ∨
        s.executes (.ok .compute) ∨ s.resets) ∧
    (s.Inv → s.rzero = true → t.rzero = false →
      (∃ ch, s.executes (.ok (.pushd ch)) ∨ s.executes (.ok (.pushg ch))) ∨ s.executes (.ok .clear) ∨
        s.executes (.ok .compute) ∨ s.resets)

/-! ### The host's lines -/

/-- R90: every command line is one admitted CMD write of its word, which a step in IDLE executes; the pseudo-instruction
`loadd` loads its characters one PUSHD each, in order (R91). -/
def Obligations.CommandLineIsOneCmdWrite : Prop :=
  (∀ (c : Config) (h : HostReadings) (i : Instr),
    Line.assemble c h (.cmd i) = [writeAt c 0x00 (encode i)]) ∧
  (∀ (s : State) (i : Instr) (rest : List Event), s.phase = .idle →
    s.pending = .access (writeAt s.cfg 0x00 (encode i)) :: rest →
    step s = exec i { s with pending := rest }) ∧
  (∀ (c : Config) (h : HostReadings) (cs : List Byte),
    Line.assemble c h (.loadd cs) = cs.map fun ch => writeAt c 0x00 (encode (.pushd ch)))
end

