-- ==== Sys2Proof/Laws/State.lean ====
section
/-!
SUPPORT. What each named update of the state does to each field, so that no later proof unfolds one, and the state
after reset field by field.
-/

namespace Sys2Proof.Machine

@[simp] theorem clearResult_cfg (s : State) : (clearResult s).cfg = s.cfg := rfl
@[simp] theorem clearResult_data (s : State) : (clearResult s).data = s.data := rfl
@[simp] theorem clearResult_dlen (s : State) : (clearResult s).dlen = s.dlen := rfl
@[simp] theorem clearResult_gen (s : State) : (clearResult s).gen = s.gen := rfl
@[simp] theorem clearResult_glen (s : State) : (clearResult s).glen = s.glen := rfl
@[simp] theorem clearResult_work (s : State) : (clearResult s).work = s.work := rfl
@[simp] theorem clearResult_rem (s : State) : (clearResult s).rem = s.rem := rfl
@[simp] theorem clearResult_rlen (s : State) : (clearResult s).rlen = 0 := rfl
@[simp] theorem clearResult_ridx (s : State) : (clearResult s).ridx = s.ridx := rfl
@[simp] theorem clearResult_phase (s : State) : (clearResult s).phase = s.phase := rfl
@[simp] theorem clearResult_scanI (s : State) : (clearResult s).scanI = s.scanI := rfl
@[simp] theorem clearResult_rvalid (s : State) : (clearResult s).rvalid = false := rfl
@[simp] theorem clearResult_rzero (s : State) : (clearResult s).rzero = false := rfl
@[simp] theorem clearResult_errcode (s : State) : (clearResult s).errcode = s.errcode := rfl
@[simp] theorem clearResult_invch (s : State) : (clearResult s).invch = s.invch := rfl
@[simp] theorem clearResult_dovf (s : State) : (clearResult s).dovf = s.dovf := rfl
@[simp] theorem clearResult_govf (s : State) : (clearResult s).govf = s.govf := rfl
@[simp] theorem clearResult_cmdlost (s : State) : (clearResult s).cmdlost = s.cmdlost := rfl
@[simp] theorem clearResult_pending (s : State) : (clearResult s).pending = s.pending := rfl
@[simp] theorem clearResult_answers (s : State) : (clearResult s).answers = s.answers := rfl
@[simp] theorem clearResult_draws (s : State) : (clearResult s).draws = s.draws := rfl

@[simp] theorem raiseError_cfg (e : ErrCode) (s : State) : (raiseError e s).cfg = s.cfg := rfl
@[simp] theorem raiseError_data (e : ErrCode) (s : State) : (raiseError e s).data = s.data := rfl
@[simp] theorem raiseError_dlen (e : ErrCode) (s : State) : (raiseError e s).dlen = s.dlen := rfl
@[simp] theorem raiseError_gen (e : ErrCode) (s : State) : (raiseError e s).gen = s.gen := rfl
@[simp] theorem raiseError_glen (e : ErrCode) (s : State) : (raiseError e s).glen = s.glen := rfl
@[simp] theorem raiseError_work (e : ErrCode) (s : State) : (raiseError e s).work = s.work := rfl
@[simp] theorem raiseError_rem (e : ErrCode) (s : State) : (raiseError e s).rem = s.rem := rfl
@[simp] theorem raiseError_rlen (e : ErrCode) (s : State) : (raiseError e s).rlen = s.rlen := rfl
@[simp] theorem raiseError_ridx (e : ErrCode) (s : State) : (raiseError e s).ridx = s.ridx := rfl
@[simp] theorem raiseError_phase (e : ErrCode) (s : State) : (raiseError e s).phase = s.phase := rfl
@[simp] theorem raiseError_scanI (e : ErrCode) (s : State) : (raiseError e s).scanI = s.scanI := rfl
@[simp] theorem raiseError_rvalid (e : ErrCode) (s : State) : (raiseError e s).rvalid = s.rvalid := rfl
@[simp] theorem raiseError_rzero (e : ErrCode) (s : State) : (raiseError e s).rzero = s.rzero := rfl
@[simp] theorem raiseError_errcode (e : ErrCode) (s : State) : (raiseError e s).errcode = e := rfl
@[simp] theorem raiseError_invch (e : ErrCode) (s : State) : (raiseError e s).invch = s.invch := rfl
@[simp] theorem raiseError_dovf (e : ErrCode) (s : State) : (raiseError e s).dovf = s.dovf := rfl
@[simp] theorem raiseError_govf (e : ErrCode) (s : State) : (raiseError e s).govf = s.govf := rfl
@[simp] theorem raiseError_cmdlost (e : ErrCode) (s : State) : (raiseError e s).cmdlost = s.cmdlost := rfl
@[simp] theorem raiseError_pending (e : ErrCode) (s : State) : (raiseError e s).pending = s.pending := rfl
@[simp] theorem raiseError_answers (e : ErrCode) (s : State) : (raiseError e s).answers = s.answers := rfl
@[simp] theorem raiseError_draws (e : ErrCode) (s : State) : (raiseError e s).draws = s.draws := rfl

@[simp] theorem answer_cfg (v : Word) (s : State) : (answer v s).cfg = s.cfg := rfl
@[simp] theorem answer_data (v : Word) (s : State) : (answer v s).data = s.data := rfl
@[simp] theorem answer_dlen (v : Word) (s : State) : (answer v s).dlen = s.dlen := rfl
@[simp] theorem answer_gen (v : Word) (s : State) : (answer v s).gen = s.gen := rfl
@[simp] theorem answer_glen (v : Word) (s : State) : (answer v s).glen = s.glen := rfl
@[simp] theorem answer_work (v : Word) (s : State) : (answer v s).work = s.work := rfl
@[simp] theorem answer_rem (v : Word) (s : State) : (answer v s).rem = s.rem := rfl
@[simp] theorem answer_rlen (v : Word) (s : State) : (answer v s).rlen = s.rlen := rfl
@[simp] theorem answer_ridx (v : Word) (s : State) : (answer v s).ridx = s.ridx := rfl
@[simp] theorem answer_phase (v : Word) (s : State) : (answer v s).phase = s.phase := rfl
@[simp] theorem answer_scanI (v : Word) (s : State) : (answer v s).scanI = s.scanI := rfl
@[simp] theorem answer_rvalid (v : Word) (s : State) : (answer v s).rvalid = s.rvalid := rfl
@[simp] theorem answer_rzero (v : Word) (s : State) : (answer v s).rzero = s.rzero := rfl
@[simp] theorem answer_errcode (v : Word) (s : State) : (answer v s).errcode = s.errcode := rfl
@[simp] theorem answer_invch (v : Word) (s : State) : (answer v s).invch = s.invch := rfl
@[simp] theorem answer_dovf (v : Word) (s : State) : (answer v s).dovf = s.dovf := rfl
@[simp] theorem answer_govf (v : Word) (s : State) : (answer v s).govf = s.govf := rfl
@[simp] theorem answer_cmdlost (v : Word) (s : State) : (answer v s).cmdlost = s.cmdlost := rfl
@[simp] theorem answer_pending (v : Word) (s : State) : (answer v s).pending = s.pending := rfl
@[simp] theorem answer_answers (v : Word) (s : State) : (answer v s).answers = s.answers ++ [v] := rfl
@[simp] theorem answer_draws (v : Word) (s : State) : (answer v s).draws = s.draws := rfl

@[simp] theorem answerFree_cfg (s : State) : (answerFree s).cfg = s.cfg := rfl
@[simp] theorem answerFree_data (s : State) : (answerFree s).data = s.data := rfl
@[simp] theorem answerFree_dlen (s : State) : (answerFree s).dlen = s.dlen := rfl
@[simp] theorem answerFree_gen (s : State) : (answerFree s).gen = s.gen := rfl
@[simp] theorem answerFree_glen (s : State) : (answerFree s).glen = s.glen := rfl
@[simp] theorem answerFree_work (s : State) : (answerFree s).work = s.work := rfl
@[simp] theorem answerFree_rem (s : State) : (answerFree s).rem = s.rem := rfl
@[simp] theorem answerFree_rlen (s : State) : (answerFree s).rlen = s.rlen := rfl
@[simp] theorem answerFree_ridx (s : State) : (answerFree s).ridx = s.ridx := rfl
@[simp] theorem answerFree_phase (s : State) : (answerFree s).phase = s.phase := rfl
@[simp] theorem answerFree_scanI (s : State) : (answerFree s).scanI = s.scanI := rfl
@[simp] theorem answerFree_rvalid (s : State) : (answerFree s).rvalid = s.rvalid := rfl
@[simp] theorem answerFree_rzero (s : State) : (answerFree s).rzero = s.rzero := rfl
@[simp] theorem answerFree_errcode (s : State) : (answerFree s).errcode = s.errcode := rfl
@[simp] theorem answerFree_invch (s : State) : (answerFree s).invch = s.invch := rfl
@[simp] theorem answerFree_dovf (s : State) : (answerFree s).dovf = s.dovf := rfl
@[simp] theorem answerFree_govf (s : State) : (answerFree s).govf = s.govf := rfl
@[simp] theorem answerFree_cmdlost (s : State) : (answerFree s).cmdlost = s.cmdlost := rfl
@[simp] theorem answerFree_pending (s : State) : (answerFree s).pending = s.pending := rfl
@[simp] theorem answerFree_answers (s : State) : (answerFree s).answers = s.answers ++ [Config.resetReadData s.draws] := rfl
@[simp] theorem answerFree_draws (s : State) : (answerFree s).draws = s.draws + 1 := rfl

@[simp] theorem resetBlock_cfg (s : State) : (resetBlock s).cfg = s.cfg := rfl
@[simp] theorem resetBlock_data (s : State) : (resetBlock s).data = Cells.blank s.cfg.maxBits := rfl
@[simp] theorem resetBlock_dlen (s : State) : (resetBlock s).dlen = 0 := rfl
@[simp] theorem resetBlock_gen (s : State) : (resetBlock s).gen = Cells.blank s.cfg.maxBits := rfl
@[simp] theorem resetBlock_glen (s : State) : (resetBlock s).glen = 0 := rfl
@[simp] theorem resetBlock_work (s : State) : (resetBlock s).work = Cells.blank s.cfg.maxBits := rfl
@[simp] theorem resetBlock_rem (s : State) : (resetBlock s).rem = Cells.blank s.cfg.maxBits := rfl
@[simp] theorem resetBlock_rlen (s : State) : (resetBlock s).rlen = 0 := rfl
@[simp] theorem resetBlock_ridx (s : State) : (resetBlock s).ridx = 0 := rfl
@[simp] theorem resetBlock_phase (s : State) : (resetBlock s).phase = .idle := rfl
@[simp] theorem resetBlock_scanI (s : State) : (resetBlock s).scanI = 0 := rfl
@[simp] theorem resetBlock_rvalid (s : State) : (resetBlock s).rvalid = false := rfl
@[simp] theorem resetBlock_rzero (s : State) : (resetBlock s).rzero = false := rfl
@[simp] theorem resetBlock_errcode (s : State) : (resetBlock s).errcode = .none := rfl
@[simp] theorem resetBlock_invch (s : State) : (resetBlock s).invch = false := rfl
@[simp] theorem resetBlock_dovf (s : State) : (resetBlock s).dovf = false := rfl
@[simp] theorem resetBlock_govf (s : State) : (resetBlock s).govf = false := rfl
@[simp] theorem resetBlock_cmdlost (s : State) : (resetBlock s).cmdlost = false := rfl
@[simp] theorem resetBlock_pending (s : State) : (resetBlock s).pending = s.pending := rfl
@[simp] theorem resetBlock_answers (s : State) : (resetBlock s).answers = s.answers := rfl
@[simp] theorem resetBlock_draws (s : State) : (resetBlock s).draws = s.draws := rfl

@[simp] theorem resetFor_cfg (c : Config) : (State.resetFor c).cfg = c := rfl
@[simp] theorem resetFor_data (c : Config) : (State.resetFor c).data = Cells.blank c.maxBits := rfl
@[simp] theorem resetFor_dlen (c : Config) : (State.resetFor c).dlen = 0 := rfl
@[simp] theorem resetFor_gen (c : Config) : (State.resetFor c).gen = Cells.blank c.maxBits := rfl
@[simp] theorem resetFor_glen (c : Config) : (State.resetFor c).glen = 0 := rfl
@[simp] theorem resetFor_work (c : Config) : (State.resetFor c).work = Cells.blank c.maxBits := rfl
@[simp] theorem resetFor_rem (c : Config) : (State.resetFor c).rem = Cells.blank c.maxBits := rfl
@[simp] theorem resetFor_rlen (c : Config) : (State.resetFor c).rlen = 0 := rfl
@[simp] theorem resetFor_ridx (c : Config) : (State.resetFor c).ridx = 0 := rfl
@[simp] theorem resetFor_phase (c : Config) : (State.resetFor c).phase = .idle := rfl
@[simp] theorem resetFor_scanI (c : Config) : (State.resetFor c).scanI = 0 := rfl
@[simp] theorem resetFor_rvalid (c : Config) : (State.resetFor c).rvalid = false := rfl
@[simp] theorem resetFor_rzero (c : Config) : (State.resetFor c).rzero = false := rfl
@[simp] theorem resetFor_errcode (c : Config) : (State.resetFor c).errcode = .none := rfl
@[simp] theorem resetFor_invch (c : Config) : (State.resetFor c).invch = false := rfl
@[simp] theorem resetFor_dovf (c : Config) : (State.resetFor c).dovf = false := rfl
@[simp] theorem resetFor_govf (c : Config) : (State.resetFor c).govf = false := rfl
@[simp] theorem resetFor_cmdlost (c : Config) : (State.resetFor c).cmdlost = false := rfl
@[simp] theorem resetFor_pending (c : Config) : (State.resetFor c).pending = [] := rfl
@[simp] theorem resetFor_answers (c : Config) : (State.resetFor c).answers = [] := rfl
@[simp] theorem resetFor_draws (c : Config) : (State.resetFor c).draws = 0 := rfl

/-- The reset input leaves the reset state of the instance, beside the environment's records. -/
theorem resetBlock_eq_resetFor (s : State) :
    resetBlock s =
      { State.resetFor s.cfg with pending := s.pending, answers := s.answers, draws := s.draws } := rfl

end Sys2Proof.Machine
end

