-- ==== Sys2Proof/Laws/Cells.lean ====
section
/-!
SUPPORT. What reading and writing cells and slices can do: one characterisation for each operation, reads after
writes, and that every write keeps a buffer's size.
-/

namespace Sys2Proof.Machine

@[simp] theorem length_blank (n : Nat) : (Cells.blank n).length = n := by simp [Cells.blank]

@[simp] theorem get_blank (n i : Nat) : Cells.get (Cells.blank n) i = none := by
  simp only [Cells.get, Cells.blank, List.getElem?_replicate]
  split <;> rfl

/-- A cell that holds a value exists. -/
theorem lt_length_of_get {cells : Cells} {i : Nat} {b : Bit} (h : Cells.get cells i = some b) :
    i < cells.length := by
  by_contra hi
  rw [Cells.get, List.getElem?_eq_none (by omega)] at h
  cases h

theorem put_eq_some {cells out : Cells} {i : Nat} {b : Bit} :
    Cells.put cells i b = some out ↔ i < cells.length ∧ cells.set i (some b) = out := by
  unfold Cells.put
  split <;> simp_all

theorem length_put {cells out : Cells} {i : Nat} {b : Bit} (h : Cells.put cells i b = some out) :
    out.length = cells.length := by
  obtain ⟨-, rfl⟩ := put_eq_some.mp h
  simp

/-- Reading after one write. -/
theorem get_put {cells out : Cells} {i : Nat} {b : Bit} (h : Cells.put cells i b = some out) (j : Nat) :
    Cells.get out j = if j = i then some b else Cells.get cells j := by
  obtain ⟨hi, rfl⟩ := put_eq_some.mp h
  unfold Cells.get
  rw [List.getElem?_set]
  by_cases hj : j = i
  · subst hj; simp [hi]
  · simp [hj, Ne.symm hj]

/-- A slice is the bitstring of its cells, position by position. -/
theorem slice_eq_some {cells : Cells} {i k : Nat} {bs : Bitstring} :
    Cells.slice cells i k = some bs ↔
      bs.length = k ∧ ∀ j < k, Cells.get cells (i + j) = bs[j]? := by
  induction k generalizing i bs with
  | zero => cases bs <;> simp [Cells.slice]
  | succ k ih =>
    constructor
    · intro h
      rw [Cells.slice] at h
      split at h
      · next b rest hb hrest =>
        cases h
        obtain ⟨hlen, hget⟩ := ih.mp hrest
        refine ⟨by simp [hlen], fun j hj => ?_⟩
        cases j with
        | zero => simpa using hb
        | succ j =>
          have := hget j (by omega)
          simpa [Nat.add_assoc, Nat.add_comm 1] using this
      · cases h
    · rintro ⟨hlen, hget⟩
      cases bs with
      | nil => simp at hlen
      | cons b rest =>
        have h0 : Cells.get cells i = some b := by simpa using hget 0 (by omega)
        have hrest : Cells.slice cells (i + 1) k = some rest := by
          refine ih.mpr ⟨by simpa using hlen, fun j hj => ?_⟩
          have := hget (j + 1) (by omega)
          simpa [Nat.add_assoc, Nat.add_comm 1] using this
        simp [Cells.slice, h0, hrest]

theorem length_of_slice {cells : Cells} {i k : Nat} {bs : Bitstring}
    (h : Cells.slice cells i k = some bs) : bs.length = k := (slice_eq_some.mp h).1

/-- A slice's bit at a position, read from the cell. -/
theorem get_of_slice {cells : Cells} {i k : Nat} {bs : Bitstring} (h : Cells.slice cells i k = some bs)
    {j : Nat} (hj : j < k) : Cells.get cells (i + j) = bs[j]? := (slice_eq_some.mp h).2 j hj

/-- The window of a slice is a slice. -/
theorem slice_window {cells : Cells} {i k : Nat} {bs : Bitstring} (h : Cells.slice cells i k = some bs)
    {o n : Nat} (hn : o + n ≤ k) : Cells.slice cells (i + o) n = some ((bs.drop o).take n) := by
  obtain ⟨hlen, hget⟩ := slice_eq_some.mp h
  refine slice_eq_some.mpr ⟨by simp; omega, fun j hj => ?_⟩
  rw [Nat.add_assoc, hget (o + j) (by omega), List.getElem?_take_of_lt hj, List.getElem?_drop]

/-- Slices that lie in equal cells are equal. -/
theorem slice_congr {cells out : Cells} {i k : Nat}
    (h : ∀ j < k, Cells.get out (i + j) = Cells.get cells (i + j)) :
    Cells.slice out i k = Cells.slice cells i k := by
  induction k generalizing i with
  | zero => rfl
  | succ k ih =>
    have h0 : Cells.get out i = Cells.get cells i := by simpa using h 0 (by omega)
    have hrest : Cells.slice out (i + 1) k = Cells.slice cells (i + 1) k := by
      refine ih fun j hj => ?_
      have := h (j + 1) (by omega)
      simpa [Nat.add_assoc, Nat.add_comm 1] using this
    simp [Cells.slice, h0, hrest]

/-- A slice of slices that meet. -/
theorem slice_append {cells : Cells} {i k n : Nat} {as bs : Bitstring}
    (ha : Cells.slice cells i k = some as) (hb : Cells.slice cells (i + k) n = some bs) :
    Cells.slice cells i (k + n) = some (as ++ bs) := by
  obtain ⟨la, ga⟩ := slice_eq_some.mp ha
  obtain ⟨lb, gb⟩ := slice_eq_some.mp hb
  refine slice_eq_some.mpr ⟨by simp [la, lb], fun j hj => ?_⟩
  by_cases hjk : j < k
  · rw [ga j hjk, List.getElem?_append_left (by omega)]
  · have := gb (j - k) (by omega)
    rw [show i + k + (j - k) = i + j by omega] at this
    rw [this, List.getElem?_append_right (by omega), la]

/-- Everything a write of a slice can do: the buffer keeps its size, the window holds the bits written, and every
other cell is as before. -/
theorem putSlice_spec {cells out : Cells} {i : Nat} {bs : Bitstring}
    (h : Cells.putSlice cells i bs = some out) :
    out.length = cells.length ∧
      ∀ j, Cells.get out j = if i ≤ j ∧ j < i + bs.length then bs[j - i]? else Cells.get cells j := by
  induction bs generalizing cells i with
  | nil =>
    cases h
    exact ⟨rfl, fun j => by rw [if_neg (by simp)]⟩
  | cons b bs ih =>
    rw [Cells.putSlice] at h
    split at h
    · next mid hmid =>
      obtain ⟨hlen, hget⟩ := ih h
      refine ⟨hlen.trans (length_put hmid), fun j => ?_⟩
      rw [hget j, get_put hmid j]
      by_cases hj : j = i
      · subst hj; simp
      · by_cases hw : i + 1 ≤ j ∧ j < i + 1 + bs.length
        · rw [if_pos hw, if_pos (by simp only [List.length_cons]; omega),
            show j - i = (j - (i + 1)) + 1 by omega, List.getElem?_cons_succ]
        · rw [if_neg hw, if_neg hj, if_neg (by simp only [List.length_cons]; omega)]
    · cases h

theorem length_putSlice {cells out : Cells} {i : Nat} {bs : Bitstring}
    (h : Cells.putSlice cells i bs = some out) : out.length = cells.length := (putSlice_spec h).1

/-- A write of a slice succeeds exactly when the buffer has all its positions. -/
theorem putSlice_of_fits {cells : Cells} {i : Nat} {bs : Bitstring} (h : i + bs.length ≤ cells.length) :
    ∃ out, Cells.putSlice cells i bs = some out := by
  induction bs generalizing cells i with
  | nil => exact ⟨cells, rfl⟩
  | cons b bs ih =>
    simp only [List.length_cons] at h
    have hput : Cells.put cells i b = some (cells.set i (some b)) := by simp [Cells.put]; omega
    obtain ⟨out, hout⟩ := ih (cells := cells.set i (some b)) (i := i + 1) (by simp; omega)
    exact ⟨out, by simp [Cells.putSlice, hput, hout]⟩

/-- The slice just written reads back. -/
theorem slice_putSlice {cells out : Cells} {i : Nat} {bs : Bitstring}
    (h : Cells.putSlice cells i bs = some out) : Cells.slice out i bs.length = some bs := by
  refine slice_eq_some.mpr ⟨rfl, fun j hj => ?_⟩
  rw [(putSlice_spec h).2, if_pos (by omega), show i + j - i = j by omega]

/-- A larger slice after a window of it has been written. -/
theorem slice_putSlice_window {cells out : Cells} {i k : Nat} {as bs : Bitstring}
    (hs : Cells.slice cells 0 k = some as) (h : Cells.putSlice cells i bs = some out) (hfit : i + bs.length ≤ k) :
    Cells.slice out 0 k = some (as.take i ++ bs ++ as.drop (i + bs.length)) := by
  obtain ⟨hlen, hget⟩ := slice_eq_some.mp hs
  have hti : (as.take i).length = i := by simp; omega
  refine slice_eq_some.mpr ⟨by simp; omega, fun j hj => ?_⟩
  rw [Nat.zero_add, (putSlice_spec h).2]
  have hgj : Cells.get cells j = as[j]? := by simpa using hget j hj
  by_cases hlt : j < i
  · rw [if_neg (by omega), hgj, List.append_assoc, List.getElem?_append_left (by omega),
      List.getElem?_take_of_lt hlt]
  · by_cases hmid : j < i + bs.length
    · rw [if_pos (by omega), List.append_assoc, List.getElem?_append_right (by omega), hti,
        List.getElem?_append_left (by omega)]
    · rw [if_neg (by omega), hgj, List.append_assoc, List.getElem?_append_right (by omega), hti,
        List.getElem?_append_right (by omega), List.getElem?_drop]
      congr 1
      omega

/-- Appending one bit to a slice that starts at position 0. -/
theorem slice_put_end {cells out : Cells} {k : Nat} {as : Bitstring} {b : Bit}
    (hs : Cells.slice cells 0 k = some as) (h : Cells.put cells k b = some out) :
    Cells.slice out 0 (k + 1) = some (as ++ [b]) := by
  refine slice_append (k := k) (n := 1) ?_ ?_
  · rw [slice_congr fun j hj => ?_]
    · exact hs
    · rw [get_put h, if_neg (by omega)]
  · simp [Cells.slice, get_put h]

end Sys2Proof.Machine
end

