-- ==== Sys2Proof/Laws/Crc.lean ====
section
/-!
SUPPORT. The pure division functions (R120, R121): lengths, single positions, linearity, and what the scan does not
see.
-/

namespace Sys2Proof.Machine

@[simp] theorem length_xeng (w g : Bitstring) (lead : Bit) :
    (xeng w g lead).length = min w.length g.length := by simp [xeng]

@[simp] theorem length_augment (d g : Bitstring) :
    (augment d g).length = d.length + (g.length - 1) := by simp [augment]

/-- An iteration whose window fits keeps the buffer's length. -/
theorem length_scanAt {g a : Bitstring} {i : Nat} (h : i + g.length ≤ a.length) :
    (scanAt g i a).length = a.length := by
  simp [scanAt]; omega

/-- The scan keeps the buffer's length as long as its windows fit. -/
theorem length_scanUpTo {g a : Bitstring} {k : Nat} (h : k + g.length ≤ a.length + 1) :
    (scanUpTo g a k).length = a.length := by
  induction k with
  | zero => rfl
  | succ k ih => rw [scanUpTo, length_scanAt (by rw [ih (by omega)]; omega), ih (by omega)]

/-- One position after an iteration: inside the window the generator's bit is XORed in under the lead bit, outside it
nothing changes. -/
theorem getElem?_scanAt {g a : Bitstring} {i : Nat} (h : i + g.length ≤ a.length) (j : Nat) :
    (scanAt g i a)[j]? =
      if i ≤ j ∧ j < i + g.length then
        a[j]?.map fun x => x ^^ (a.getD i false && g.getD (j - i) false)
      else a[j]? := by
  have hti : (a.take i).length = i := by simp; omega
  have hxl : (xeng ((a.drop i).take g.length) g (a.getD i false)).length = g.length := by simp; omega
  unfold scanAt
  by_cases hlt : j < i
  · rw [if_neg (by omega), List.append_assoc, List.getElem?_append_left (by omega), List.getElem?_take_of_lt hlt]
  by_cases hmid : j < i + g.length
  · rw [if_pos (by omega), List.append_assoc, List.getElem?_append_right (by omega), hti,
      List.getElem?_append_left (by omega), xeng, List.getElem?_zipWith,
      List.getElem?_take_of_lt (by omega), List.getElem?_drop, show i + (j - i) = j by omega,
      List.getElem?_eq_getElem (l := a) (by omega), List.getElem?_eq_getElem (l := g) (by omega)]
    simp [List.getD, List.getElem?_eq_getElem (l := g) (show j - i < g.length by omega)]
  · rw [if_neg (by omega), List.append_assoc, List.getElem?_append_right (by omega), hti,
      List.getElem?_append_right (by omega), hxl, List.getElem?_drop]
    congr 1
    omega

/-- Under lead 1 the engine XORs (R121). -/
theorem xeng_true (w g : Bitstring) : xeng w g true = List.zipWith xor w g := by simp [xeng]

/-- Under lead 0 it leaves the window (R121). -/
theorem xeng_false {w g : Bitstring} (h : w.length = g.length) : xeng w g false = w := by
  apply List.ext_getElem
  · simp; omega
  · intro j h1 h2; simp [xeng]

/-- A position whose lead bit is 0 leaves the buffer (R123). -/
theorem scanAt_of_lead_false {g a : Bitstring} {i : Nat} (h : i + g.length ≤ a.length)
    (hl : a.getD i false = false) : scanAt g i a = a := by
  apply List.ext_getElem?; intro j
  rw [getElem?_scanAt h, hl]
  split <;> simp

/-- An iteration does not see what lies behind its window. -/
theorem scanAt_append {g a z : Bitstring} {i : Nat} (hg : 1 ≤ g.length) (h : i + g.length ≤ a.length) :
    scanAt g i (a ++ z) = scanAt g i a ++ z := by
  apply List.ext_getElem?; intro j
  have hl := length_scanAt h
  rw [getElem?_scanAt (by simp; omega)]
  have hlead : (a ++ z).getD i false = a.getD i false := by
    simp only [List.getD]; rw [List.getElem?_append_left (by omega)]
  rw [hlead]
  by_cases hj : j < a.length
  · rw [List.getElem?_append_left hj, List.getElem?_append_left (by omega), getElem?_scanAt h]
  · rw [if_neg (by omega), List.getElem?_append_right (by omega), List.getElem?_append_right (by omega), hl]

/-- The scan does not see what lies behind its windows. -/
theorem scanUpTo_append {g a z : Bitstring} {k : Nat} (hg : 1 ≤ g.length) (h : k + g.length ≤ a.length + 1) :
    scanUpTo g (a ++ z) k = scanUpTo g a k ++ z := by
  induction k with
  | zero => rfl
  | succ k ih => rw [scanUpTo, ih (by omega), scanAt_append hg (by rw [length_scanUpTo (by omega)]; omega), scanUpTo]

/-- A position of the XOR of two bitstrings. -/
theorem getD_xor {a b : Bitstring} (h : a.length = b.length) (i : Nat) :
    (List.zipWith xor a b).getD i false = xor (a.getD i false) (b.getD i false) := by
  simp only [List.getD, List.getElem?_zipWith]
  by_cases hi : i < a.length
  · rw [List.getElem?_eq_getElem hi, List.getElem?_eq_getElem (by omega : i < b.length)]; rfl
  · rw [List.getElem?_eq_none (by omega : a.length ≤ i), List.getElem?_eq_none (by omega : b.length ≤ i)]; rfl

/-- An iteration is linear in the buffer. -/
theorem scanAt_xor {g a b : Bitstring} {i : Nat} (hab : a.length = b.length) (h : i + g.length ≤ a.length) :
    scanAt g i (List.zipWith xor a b) = List.zipWith xor (scanAt g i a) (scanAt g i b) := by
  apply List.ext_getElem?; intro j
  rw [getElem?_scanAt (by simp; omega), List.getElem?_zipWith, List.getElem?_zipWith, getElem?_scanAt h,
    getElem?_scanAt (by omega), getD_xor hab]
  by_cases hj : j < a.length
  · rw [List.getElem?_eq_getElem hj, List.getElem?_eq_getElem (by omega : j < b.length)]
    split
    · simp only [Option.map_some, Option.some.injEq]
      cases a[j] <;> cases b[j] <;> cases a.getD i false <;> cases b.getD i false <;> cases g.getD (j - i) false <;> rfl
    · rfl
  · rw [List.getElem?_eq_none (by omega : a.length ≤ j), List.getElem?_eq_none (by omega : b.length ≤ j)]; split <;> rfl

/-- The scan is linear in the buffer. -/
theorem scanUpTo_xor {g a b : Bitstring} {k : Nat} (hab : a.length = b.length) (h : k + g.length ≤ a.length + 1) :
    scanUpTo g (List.zipWith xor a b) k = List.zipWith xor (scanUpTo g a k) (scanUpTo g b k) := by
  induction k with
  | zero => rfl
  | succ k ih =>
    have ha := length_scanUpTo (g := g) (a := a) (k := k) (by omega)
    have hb := length_scanUpTo (g := g) (a := b) (k := k) (by omega)
    rw [scanUpTo, ih (by omega), scanAt_xor (by omega) (by omega), scanUpTo, scanUpTo]

/-- Where the scan finds only zeros from a position on, it changes nothing more. -/
theorem scanUpTo_of_zeros {g a : Bitstring} {n k : Nat}
    (hz : ∀ j < k, (scanUpTo g a n).getD (n + j) false = false) (h : n + k + g.length ≤ a.length + 1) :
    scanUpTo g a (n + k) = scanUpTo g a n := by
  induction k with
  | zero => rfl
  | succ k ih =>
    have e := ih (fun j hj => hz j (by omega)) (by omega)
    rw [← Nat.add_assoc, scanUpTo, e]
    exact scanAt_of_lead_false (by rw [length_scanUpTo (by omega)]; omega) (hz k (by omega))

end Sys2Proof.Machine
end

