-- ==== Sys2Proof/Laws/Decode.lean ====
section
/-!
SUPPORT. The fields of the three command formats: what a format puts into a word, its fields give back, and a word
whose reserved bits are 0 is what its fields make (spec/30_encoding.md rules R81 to R85).
-/

namespace Sys2Proof

/-- A bit of a word, read from the field it stands in. -/
theorem getLsbD_of_field {v : Word} {a n k : Nat} {x : BitVec n} (h : v.extractLsb' a n = x) (hk : k < n) :
    v.getLsbD (a + k) = x.getLsbD k := by
  rw [← h]; simp [hk]

/-- A word of format C is put together from its fields (R83). -/
theorem formatC_of_fields {v : Word} {op : BitVec 4} (h : opField v = op)
    (h2 : formatCOk v = true) : formatC (chField v) op = v := by
  simp only [formatCOk, Bool.and_eq_true, beq_iff_eq] at h2
  obtain ⟨h2, h3⟩ := h2
  subst h
  apply BitVec.eq_of_getLsbD_eq
  intro k hk
  have e2 : ∀ j < 16, v.getLsbD (16 + j) = false := fun j hj => by simpa using getLsbD_of_field h2 hj
  have e3 : ∀ j < 4, v.getLsbD (4 + j) = false := fun j hj => by simpa using getLsbD_of_field h3 hj
  simp only [formatC, chField, opField, BitVec.getLsbD_or, BitVec.getLsbD_shiftLeft, BitVec.getLsbD_setWidth,
    BitVec.getLsbD_extractLsb']
  by_cases c1 : k < 4
  · simp [c1, hk]; omega
  by_cases c2 : k < 8
  · have := e3 (k-4) (by omega)
    rw [show 4 + (k-4) = k by omega] at this
    simp [c1,c2,hk]; simpa [BitVec.getLsbD_eq_getElem hk] using this
  by_cases c3 : k < 16
  · simp [c1,c2,hk, show k - 8 < 8 by omega, show 8 + (k - 8) = k by omega]; omega
  · have := e2 (k-16) (by omega)
    rw [show 16 + (k-16) = k by omega] at this
    simp [c1, this]; omega

/-- A word of format N is its opcode (R82). -/
theorem formatN_of_fields {v : Word} {op : BitVec 4} (h : opField v = op)
    (h2 : formatNOk v = true) : formatN op = v := by
  simp only [formatNOk, beq_iff_eq] at h2
  subst h
  apply BitVec.eq_of_getLsbD_eq
  intro k hk
  have e2 : ∀ j < 28, v.getLsbD (4 + j) = false := fun j hj => by simpa using getLsbD_of_field h2 hj
  simp only [formatN, opField, BitVec.getLsbD_setWidth, BitVec.getLsbD_extractLsb']
  by_cases c1 : k < 4
  · simp [c1, hk]
  · have := e2 (k-4) (by omega)
    rw [show 4 + (k-4) = k by omega] at this
    simp [c1, this]

/-- A word of format I is put together from its fields (R84). -/
theorem formatI_of_fields {v : Word} {op : BitVec 4} (h : opField v = op)
    (h2 : formatIOk v = true) : formatI (idxField v) op = v := by
  simp only [formatIOk, beq_iff_eq] at h2
  subst h
  apply BitVec.eq_of_getLsbD_eq
  intro k hk
  have e2 : ∀ j < 12, v.getLsbD (4 + j) = false := fun j hj => by simpa using getLsbD_of_field h2 hj
  simp only [formatI, idxField, opField, BitVec.getLsbD_or, BitVec.getLsbD_shiftLeft, BitVec.getLsbD_setWidth,
    BitVec.getLsbD_extractLsb']
  by_cases c1 : k < 4
  · simp [c1, hk]; omega
  by_cases c2 : k < 16
  · have := e2 (k-4) (by omega)
    rw [show 4 + (k-4) = k by omega] at this
    simp [c1,c2,hk]; simpa [BitVec.getLsbD_eq_getElem hk] using this
  · simp [c1, hk, c2, show k - 16 < 16 by omega, show 16 + (k - 16) = k by omega]; omega

theorem opField_formatN (op : BitVec 4) : opField (formatN op) = op := by
  ext k hk; interval_cases k <;> simp [opField, formatN]

theorem opField_formatC (ch : Byte) (op : BitVec 4) : opField (formatC ch op) = op := by
  ext k hk; interval_cases k <;> simp [opField, formatC]

theorem opField_formatI (idx : Index) (op : BitVec 4) : opField (formatI idx op) = op := by
  ext k hk; interval_cases k <;> simp [opField, formatI]

theorem formatNOk_formatN (op : BitVec 4) : formatNOk (formatN op) = true := by
  simp only [formatNOk, beq_iff_eq]
  ext k hk; simp [formatN]

theorem formatCOk_formatC (ch : Byte) (op : BitVec 4) : formatCOk (formatC ch op) = true := by
  simp only [formatCOk, Bool.and_eq_true, beq_iff_eq]
  constructor <;> ext k hk <;> interval_cases k <;> simp [formatC]

theorem formatIOk_formatI (idx : Index) (op : BitVec 4) : formatIOk (formatI idx op) = true := by
  simp only [formatIOk, beq_iff_eq]
  ext k hk; interval_cases k <;> simp [formatI]

theorem chField_formatC (ch : Byte) (op : BitVec 4) : chField (formatC ch op) = ch := by
  ext k hk; interval_cases k <;> simp [chField, formatC]

theorem idxField_formatI (idx : Index) (op : BitVec 4) : idxField (formatI idx op) = idx := by
  ext k hk; interval_cases k <;> simp [idxField, formatI]

end Sys2Proof
end

