-- ==== Sys2Proof/Laws/Exec.lean ====
section
/-!
SUPPORT. What each meaning, each sequencer step, each event and a step can do, said once: if it answers `next t`, then
one of the named cases holds.
-/

namespace Sys2Proof.Machine

@[simp] theorem withValue_some {α : Type} (a : α) (f : Fault) (k : α → Host.Outcome State Fault Refusal) :
    withValue (some a) f k = k a := rfl

@[simp] theorem withValue_none {α : Type} (f : Fault) (k : α → Host.Outcome State Fault Refusal) :
    withValue none f k = .fault f := rfl

theorem withValue_eq_next {α : Type} {o : Option α} {f : Fault} {k : α → Host.Outcome State Fault Refusal}
    {t : State} : withValue o f k = .next t ↔ ∃ a, o = some a ∧ k a = .next t := by
  cases o <;> simp

theorem withValue_ne_refused {α : Type} {o : Option α} {f : Fault}
    {k : α → Host.Outcome State Fault Refusal} {r : Refusal} (h : ∀ a, k a ≠ .refused r) :
    withValue o f k ≠ .refused r := by
  cases o <;> simp [h]

/-- PUSHD's three outcomes (R101). -/
theorem execPushd_cases {ch : Byte} {s t : State} (h : execPushd ch s = .next t) :
    (chr2bit ch = none ∧ t = { clearResult s with invch := true }) ∨
    (∃ b, chr2bit ch = some b ∧ s.dlen = s.cfg.maxBits ∧ t = { clearResult s with dovf := true }) ∨
    (∃ b cells, chr2bit ch = some b ∧ s.dlen ≠ s.cfg.maxBits ∧ Cells.put s.data s.dlen b = some cells ∧
      t = { clearResult s with data := cells, dlen := s.dlen + 1 }) := by
  unfold execPushd at h
  split at h
  · next hch => cases h; exact .inl ⟨hch, rfl⟩
  · next b hch =>
    split at h
    · next hfull => cases h; exact .inr (.inl ⟨b, hch, hfull, rfl⟩)
    · next hroom =>
      obtain ⟨cells, hput, heq⟩ := withValue_eq_next.mp h
      cases heq
      exact .inr (.inr ⟨b, cells, hch, hroom, hput, rfl⟩)

/-- PUSHG's three outcomes (R102). -/
theorem execPushg_cases {ch : Byte} {s t : State} (h : execPushg ch s = .next t) :
    (chr2bit ch = none ∧ t = { clearResult s with invch := true }) ∨
    (∃ b, chr2bit ch = some b ∧ s.glen = s.cfg.maxBits ∧ t = { clearResult s with govf := true }) ∨
    (∃ b cells, chr2bit ch = some b ∧ s.glen ≠ s.cfg.maxBits ∧ Cells.put s.gen s.glen b = some cells ∧
      t = { clearResult s with gen := cells, glen := s.glen + 1 }) := by
  unfold execPushg at h
  split at h
  · next hch => cases h; exact .inl ⟨hch, rfl⟩
  · next b hch =>
    split at h
    · next hfull => cases h; exact .inr (.inl ⟨b, hch, hfull, rfl⟩)
    · next hroom =>
      obtain ⟨cells, hput, heq⟩ := withValue_eq_next.mp h
      cases heq
      exact .inr (.inr ⟨b, cells, hch, hroom, hput, rfl⟩)

theorem execPushd_of_invalid {ch : Byte} {s : State} (h : chr2bit ch = none) :
    execPushd ch s = .next { clearResult s with invch := true } := by
  rw [execPushd, h]

theorem execPushd_of_full {ch : Byte} {s : State} {b : Bit} (h : chr2bit ch = some b)
    (hf : s.dlen = s.cfg.maxBits) : execPushd ch s = .next { clearResult s with dovf := true } := by
  rw [execPushd, h]
  exact if_pos hf

theorem execPushd_of_room {ch : Byte} {s : State} {b : Bit} {cells : Cells} (h : chr2bit ch = some b)
    (hr : s.dlen ≠ s.cfg.maxBits) (hp : Cells.put s.data s.dlen b = some cells) :
    execPushd ch s = .next { clearResult s with data := cells, dlen := s.dlen + 1 } := by
  rw [execPushd, h]
  exact (if_neg hr).trans (by rw [hp]; rfl)

theorem execPushg_of_invalid {ch : Byte} {s : State} (h : chr2bit ch = none) :
    execPushg ch s = .next { clearResult s with invch := true } := by
  rw [execPushg, h]

theorem execPushg_of_full {ch : Byte} {s : State} {b : Bit} (h : chr2bit ch = some b)
    (hf : s.glen = s.cfg.maxBits) : execPushg ch s = .next { clearResult s with govf := true } := by
  rw [execPushg, h]
  exact if_pos hf

theorem execPushg_of_room {ch : Byte} {s : State} {b : Bit} {cells : Cells} (h : chr2bit ch = some b)
    (hr : s.glen ≠ s.cfg.maxBits) (hp : Cells.put s.gen s.glen b = some cells) :
    execPushg ch s = .next { clearResult s with gen := cells, glen := s.glen + 1 } := by
  rw [execPushg, h]
  exact (if_neg hr).trans (by rw [hp]; rfl)

/-- What acceptance by `validate` means (R125). -/
theorem validate_eq_none {s : State} :
    validate s = .none ↔
      s.invch = false ∧ 1 ≤ s.dlen ∧ 1 ≤ s.glen ∧ s.dovf = false ∧ s.govf = false ∧
        s.dlen + s.glen - 1 ≤ s.cfg.maxBits := by
  unfold validate
  split
  · next h => simp [h]
  split
  · next h => simp; omega
  split
  · next h =>
    simp only [reduceCtorEq, false_iff]
    rintro ⟨-, -, -, h1, h2, h3⟩
    simp [h1, h2] at h
    omega
  · next h1 h2 h3 =>
    simp only [true_iff]
    simp only [not_or, Bool.not_eq_true] at h1 h2 h3
    exact ⟨h1, by omega, by omega, h3.1, h3.2.1, by omega⟩

/-- COMPUTE's two outcomes (R126). -/
theorem execCompute_cases {s t : State} (h : execCompute s = .next t) :
    (validate s ≠ .none ∧ t = raiseError (validate s) (clearResult s)) ∨
    (∃ d work, validate s = .none ∧ Cells.slice s.data 0 s.dlen = some d ∧
      Cells.putSlice s.work 0 (d ++ List.replicate (s.glen - 1) false) = some work ∧
      t = { clearResult s with errcode := .none, work := work, scanI := 0, phase := .scan }) := by
  unfold execCompute at h
  split at h
  · next hv =>
    obtain ⟨d, hd, h⟩ := withValue_eq_next.mp h
    obtain ⟨work, hw, heq⟩ := withValue_eq_next.mp h
    cases heq
    exact .inr ⟨d, work, hv, hd, hw, rfl⟩
  · next e hv => cases h; exact .inl ⟨hv, rfl⟩

/-- The scan step's outcome (R127). -/
theorem scanStep_cases {s t : State} (h : scanStep s = .next t) :
    ∃ lead w g work, Cells.get s.work s.scanI = some lead ∧ Cells.slice s.work s.scanI s.glen = some w ∧
      Cells.slice s.gen 0 s.glen = some g ∧ Cells.putSlice s.work s.scanI (xeng w g lead) = some work ∧
      t = { s with work := work, scanI := s.scanI + 1 } := by
  obtain ⟨lead, hl, h⟩ := withValue_eq_next.mp h
  obtain ⟨w, hw, h⟩ := withValue_eq_next.mp h
  obtain ⟨g, hg, h⟩ := withValue_eq_next.mp h
  obtain ⟨work, ho, heq⟩ := withValue_eq_next.mp h
  cases heq
  exact ⟨lead, w, g, work, hl, hw, hg, ho, rfl⟩

/-- The finish step's outcome (R128). -/
theorem finishStep_cases {s t : State} (h : finishStep s = .next t) :
    ∃ r rem, Cells.slice s.work s.dlen (s.glen - 1) = some r ∧ Cells.putSlice s.rem 0 r = some rem ∧
      t = { s with
        rem := rem, rlen := s.glen - 1, rzero := allZero r, rvalid := true, phase := .idle } := by
  obtain ⟨r, hr, h⟩ := withValue_eq_next.mp h
  obtain ⟨rem, ho, heq⟩ := withValue_eq_next.mp h
  cases heq
  exact ⟨r, rem, hr, ho, rfl⟩

/-- The sequencer takes its enabled step, or nothing happens (R127, R128). -/
theorem sequencerStep_cases {s t : State} (h : sequencerStep s = .next t) :
    (s.phase = .idle ∧ t = s) ∨
    (s.phase = .scan ∧ s.scanI < s.dlen ∧ scanStep s = .next t) ∨
    (s.phase = .scan ∧ s.scanI = s.dlen ∧ finishStep s = .next t) ∨
    (s.phase = .scan ∧ s.dlen < s.scanI ∧ t = s) := by
  unfold sequencerStep at h
  split at h
  · next hp => cases h; exact .inl ⟨hp, rfl⟩
  · next hp =>
    split at h
    · next hlt => exact .inr (.inl ⟨hp, hlt, h⟩)
    · split at h
      · next heq => exact .inr (.inr (.inl ⟨hp, heq, h⟩))
      · cases h; exact .inr (.inr (.inr ⟨hp, by omega, rfl⟩))

theorem sequencerStep_of_idle {s : State} (hp : s.phase = .idle) : sequencerStep s = .next s := by
  unfold sequencerStep; rw [hp]

/-- Below `DLEN` the scan step is the enabled one (R127). -/
theorem sequencerStep_of_lt {s : State} (hp : s.phase = .scan) (hi : s.scanI < s.dlen) :
    sequencerStep s = scanStep s := by
  unfold sequencerStep; rw [hp]; exact if_pos hi

/-- At `DLEN` the finish step is the enabled one (R128). -/
theorem sequencerStep_of_eq {s : State} (hp : s.phase = .scan) (hi : s.scanI = s.dlen) :
    sequencerStep s = finishStep s := by
  unfold sequencerStep; rw [hp]; exact (if_neg (by omega)).trans (if_pos hi)

@[simp] theorem busy_eq_true {s : State} : s.busy = true ↔ s.phase = .scan := by
  simp [State.busy]

@[simp] theorem busy_eq_false {s : State} : s.busy = false ↔ s.phase = .idle := by
  cases h : s.phase <;> simp [State.busy, h]

/-- A command word is lost, runs its command, or is illegal (R88). -/
theorem dispatchCommand_cases {v : Word} {s t : State} (h : dispatchCommand v s = .next t) :
    (s.phase = .scan ∧ t = { s with cmdlost := true }) ∨
    (∃ i, s.phase = .idle ∧ decode v = .ok i ∧ exec i s = .next t) ∨
    (∃ e, s.phase = .idle ∧ decode v = .error e ∧ t = raiseError .illegalCommand s) := by
  unfold dispatchCommand at h
  split at h
  · next hb => cases h; exact .inl ⟨busy_eq_true.mp hb, rfl⟩
  · next hb =>
    have hp : s.phase = .idle := busy_eq_false.mp (Bool.eq_false_iff.mpr hb)
    split at h
    · next i hd => exact .inr (.inl ⟨i, hp, hd, h⟩)
    · next e hd => cases h; exact .inr (.inr ⟨e, hp, hd, rfl⟩)

/-- An access is a read that is answered, a write to CMD, or a write that is ignored (R64, R65). -/
theorem hostAccess_cases {a : Access} {s t : State} (h : hostAccess a s = .next t) :
    accessRefusal s.cfg a = none ∧
    ((∃ v, regRead s (accessSlot s.cfg a) = some v ∧ t = answer v s) ∨
     (∃ addr lanes burst, a = .write addr lanes burst ∧ accessSlot s.cfg a = some .cmd ∧
       dispatchCommand (wordOfLanes lanes) s = .next t) ∨
     t = s) := by
  unfold hostAccess at h
  split at h
  · cases h
  · next hr =>
    refine ⟨hr, ?_⟩
    split at h
    · obtain ⟨v, hv, heq⟩ := withValue_eq_next.mp h
      cases heq
      exact .inl ⟨v, hv, rfl⟩
    · next addr lanes burst =>
      unfold hostWrite at h
      split at h
      · next hs => exact .inr (.inl ⟨addr, lanes, burst, rfl, hs, h⟩)
      · cases h; exact .inr (.inr rfl)

/-- A coinciding access changes at most what the host has read and the count of free values (R230). -/
theorem coincidingAnswer_cases (a : Option Access) (s : State) :
    coincidingAnswer a s = s ∨ coincidingAnswer a s = answerFree s := by
  unfold coincidingAnswer
  split
  · split
    · exact .inl rfl
    · exact .inr rfl
  · exact .inl rfl
  · exact .inl rfl

/-- A reset leaves the block in its reset state and the environment's schedule as it was (R230). -/
theorem runEvent_reset (a : Option Access) (s : State) :
    ∃ answers draws, runEvent (.reset a) s =
      .next { State.resetFor s.cfg with pending := s.pending, answers := answers, draws := draws } := by
  obtain h | h := coincidingAnswer_cases a s
  · exact ⟨s.answers, s.draws, by rw [runEvent, h, resetBlock_eq_resetFor]⟩
  · exact ⟨(answerFree s).answers, s.draws + 1, by rw [runEvent, h, resetBlock_eq_resetFor]; rfl⟩

/-- An event is an access, a sequencer step, or a reset (R18, R220). -/
theorem runEvent_cases {e : Event} {s t : State} (h : runEvent e s = .next t) :
    (∃ a, e = .access a ∧ hostAccess a s = .next t) ∨
    (e = .sequencer ∧ sequencerStep s = .next t) ∨
    (((∃ a, e = .reset a) ∨ e = .powerLoss) ∧ ∃ answers draws,
      t = { State.resetFor s.cfg with pending := s.pending, answers := answers, draws := draws }) := by
  cases e with
  | access a => exact .inl ⟨a, rfl, h⟩
  | sequencer => exact .inr (.inl ⟨rfl, h⟩)
  | reset a =>
    obtain ⟨ans, dr, heq⟩ := runEvent_reset a s
    rw [heq] at h
    cases h
    exact .inr (.inr ⟨.inl ⟨a, rfl⟩, ans, dr, rfl⟩)
  | powerLoss =>
    cases h
    exact .inr (.inr ⟨.inr rfl, s.answers, s.draws, resetBlock_eq_resetFor s⟩)

/-! ### Whose turn it is -/

/-- An event taken past a stuck host is no access, and one event is gone. -/
theorem takeOther_spec {es rest : List Event} {e : Event} (h : takeOther es = some (e, rest)) :
    (∀ a, e ≠ .access a) ∧ es.length = rest.length + 1 := by
  induction es generalizing rest with
  | nil => cases h
  | cons x es ih =>
    cases x with
    | access a =>
      obtain ⟨⟨e', rest'⟩, hp, heq⟩ := Option.map_eq_some_iff.mp h
      cases heq
      exact ⟨(ih hp).1, by simp [(ih hp).2]⟩
    | sequencer => cases h; exact ⟨nofun, rfl⟩
    | reset b => cases h; exact ⟨nofun, rfl⟩
    | powerLoss => cases h; exact ⟨nofun, rfl⟩

/-- An access moves only from the head of what is pending, and only where it is admitted (R62, R68). -/
theorem nextTurn_access {c : Config} {p rest : List Event} {a : Access}
    (h : nextTurn c p = some (.access a, rest)) : p = .access a :: rest ∧ accessRefusal c a = none := by
  unfold nextTurn at h
  split at h
  · cases h
  · split at h
    · next hr => cases h; exact ⟨rfl, hr⟩
    · exact absurd rfl ((takeOther_spec h).1 a)
  all_goals cases h

/-- Every turn uses up one event. -/
theorem nextTurn_length {c : Config} {p rest : List Event} {e : Event} (h : nextTurn c p = some (e, rest)) :
    p.length = rest.length + 1 := by
  unfold nextTurn at h
  split at h
  · cases h
  · split at h
    · cases h; rfl
    · exact (takeOther_spec h).2
  all_goals cases h; rfl

/-- An admitted access at the head moves. -/
theorem nextTurn_of_admitted {c : Config} {a : Access} {rest : List Event} (h : accessRefusal c a = none) :
    nextTurn c (.access a :: rest) = some (.access a, rest) := by simp [nextTurn, h]

/-- Behind a refused access only the events that are no host's move. -/
theorem nextTurn_of_refused {c : Config} {a : Access} {rest : List Event} {r : Refusal}
    (h : accessRefusal c a = some r) : nextTurn c (.access a :: rest) = takeOther (.access a :: rest) := by
  simp [nextTurn, h]

/-- A turn is taken by running its event. -/
theorem step_of_turn {s : State} {e : Event} {rest : List Event}
    (h : nextTurn s.cfg s.pending = some (e, rest)) : step s = runEvent e { s with pending := rest } := by
  unfold step; rw [h]

theorem step_nil {s : State} (h : s.pending = []) : step s = sequencerStep s := by
  unfold step; rw [h]; simp [nextTurn, aloneStep, h]

theorem step_access {s : State} {a : Access} {rest : List Event} (h : s.pending = .access a :: rest)
    (ha : accessRefusal s.cfg a = none) : step s = hostAccess a { s with pending := rest } :=
  step_of_turn (e := .access a) (by rw [h]; exact nextTurn_of_admitted ha)

theorem step_sequencer {s : State} {rest : List Event} (h : s.pending = .sequencer :: rest) :
    step s = sequencerStep { s with pending := rest } :=
  step_of_turn (e := .sequencer) (by rw [h]; rfl)

theorem step_reset {s : State} {a : Option Access} {rest : List Event} (h : s.pending = .reset a :: rest) :
    step s = runEvent (.reset a) { s with pending := rest } :=
  step_of_turn (by rw [h]; rfl)

theorem step_powerLoss {s : State} {rest : List Event} (h : s.pending = .powerLoss :: rest) :
    step s = .next (resetBlock { s with pending := rest }) :=
  step_of_turn (e := .powerLoss) (by rw [h]; rfl)

/-- Where nothing pending can move, the sequencer steps, or a stuck host is refused before an idle block (R62,
R239). -/
theorem step_alone {s : State} (h : nextTurn s.cfg s.pending = none) :
    step s = sequencerStep s ∨
    (s.phase = .idle ∧ ∃ a rest r, s.pending = .access a :: rest ∧ accessRefusal s.cfg a = some r ∧
      step s = .refused r) := by
  have hs : step s = aloneStep s := by unfold step; rw [h]
  rw [hs]
  unfold aloneStep
  split
  · next a rest hp =>
    by_cases hb : s.busy = true
    · rw [if_pos hb]; exact .inl rfl
    · rw [if_neg hb]
      cases hr : accessRefusal s.cfg a with
      | none => rw [hp, nextTurn_of_admitted hr] at h; cases h
      | some r =>
        exact .inr ⟨busy_eq_false.mp (Bool.eq_false_iff.mpr hb), a, rest, r, hp, hr, by unfold hostAccess; rw [hr]⟩
  · exact .inl rfl

/-- In SCAN the sequencer steps wherever nothing pending can move (R239). -/
theorem step_alone_busy {s : State} (h : nextTurn s.cfg s.pending = none) (hp : s.phase = .scan) :
    step s = sequencerStep s := by
  obtain h | ⟨hi, -⟩ := step_alone h
  · exact h
  · rw [hp] at hi; cases hi

/-- A step that goes on runs the event whose turn it is, or the sequencer where nothing pending can move (R18,
R239). -/
theorem step_cases {s t : State} (h : step s = .next t) :
    (nextTurn s.cfg s.pending = none ∧ sequencerStep s = .next t) ∨
    (∃ e rest, nextTurn s.cfg s.pending = some (e, rest) ∧ runEvent e { s with pending := rest } = .next t) := by
  cases hn : nextTurn s.cfg s.pending with
  | none =>
    obtain hs | ⟨-, _, _, r, -, -, hs⟩ := step_alone hn
    · exact .inl ⟨rfl, hs.symm.trans h⟩
    · rw [hs] at h; cases h
  | some p => exact .inr ⟨p.1, p.2, rfl, (step_of_turn hn).symm.trans h⟩

/-! ### The buffers keep their form -/

theorem exec_keeps_memory_wf {i : Instr} {s t : State} (hw : Memory.wf s) (h : exec i s = .next t) :
    Memory.wf t := by
  obtain ⟨h1, h2, h3, h4⟩ := hw
  cases i with
  | nop => cases h; exact ⟨h1, h2, h3, h4⟩
  | clear => cases h; exact ⟨h1, h2, h3, h4⟩
  | sel idx => cases h; exact ⟨h1, h2, h3, h4⟩
  | pushd ch =>
    obtain ⟨-, rfl⟩ | ⟨-, -, -, rfl⟩ | ⟨b, cells, -, -, hput, rfl⟩ := execPushd_cases h
    · exact ⟨h1, h2, h3, h4⟩
    · exact ⟨h1, h2, h3, h4⟩
    · exact ⟨(length_put hput).trans h1, h2, h3, h4⟩
  | pushg ch =>
    obtain ⟨-, rfl⟩ | ⟨-, -, -, rfl⟩ | ⟨b, cells, -, -, hput, rfl⟩ := execPushg_cases h
    · exact ⟨h1, h2, h3, h4⟩
    · exact ⟨h1, h2, h3, h4⟩
    · exact ⟨h1, (length_put hput).trans h2, h3, h4⟩
  | compute =>
    obtain ⟨-, rfl⟩ | ⟨d, work, -, -, hput, rfl⟩ := execCompute_cases h
    · exact ⟨h1, h2, h3, h4⟩
    · exact ⟨h1, h2, (length_putSlice hput).trans h3, h4⟩

theorem sequencerStep_keeps_memory_wf {s t : State} (hw : Memory.wf s) (h : sequencerStep s = .next t) :
    Memory.wf t := by
  obtain ⟨h1, h2, h3, h4⟩ := hw
  obtain ⟨-, rfl⟩ | ⟨-, -, h⟩ | ⟨-, -, h⟩ | ⟨-, -, rfl⟩ := sequencerStep_cases h
  · exact ⟨h1, h2, h3, h4⟩
  · obtain ⟨_, _, _, work, -, -, -, hput, rfl⟩ := scanStep_cases h
    exact ⟨h1, h2, (length_putSlice hput).trans h3, h4⟩
  · obtain ⟨_, rem, -, hput, rfl⟩ := finishStep_cases h
    exact ⟨h1, h2, h3, (length_putSlice hput).trans h4⟩
  · exact ⟨h1, h2, h3, h4⟩

/-- Every step keeps the four buffers at `MAX_BITS` cells (R45). -/
theorem step_keeps_memory_wf {s t : State} (hw : Memory.wf s) (h : step s = .next t) : Memory.wf t := by
  obtain ⟨-, h⟩ | ⟨e, rest, -, h⟩ := step_cases h
  · exact sequencerStep_keeps_memory_wf hw h
  obtain ⟨a, -, h⟩ | ⟨-, h⟩ | ⟨-, _, _, rfl⟩ := runEvent_cases h
  · obtain ⟨-, ⟨v, -, rfl⟩ | ⟨_, _, _, -, -, h⟩ | rfl⟩ := hostAccess_cases h
    · exact hw
    · obtain ⟨-, rfl⟩ | ⟨i, -, -, h⟩ | ⟨_, -, -, rfl⟩ := dispatchCommand_cases h
      · exact hw
      · exact exec_keeps_memory_wf (s := { s with pending := rest }) hw h
      · exact hw
    · exact hw
  · exact sequencerStep_keeps_memory_wf (s := { s with pending := rest }) hw h
  · exact ⟨by simp, by simp, by simp, by simp⟩

/-- The reset state has the buffers' form. -/
theorem reset_memory_wf : Memory.wf State.reset := by decide

end Sys2Proof.Machine
end

