-- ==== Sys2Proof/Laws/PerInstr.lean ====
section
/-!
SUPPORT. Facts about every instruction as syntax, one lemma per constructor.
-/

namespace Sys2Proof.Laws.CoveredByItsRow

/-- The instruction's command word is covered by the instruction's row of R86's table. -/
def Statement (i : Instr) : Prop := (opcodeRow i).covers (encode i) = true

theorem nop : Statement .nop := by simp [Statement, OpcodeRow.covers, opcodeRow, encode, formatN]

theorem clear : Statement .clear := by simp [Statement, OpcodeRow.covers, opcodeRow, encode, formatN]

theorem pushd (ch : Byte) : Statement (.pushd ch) := by
  simp only [Statement, OpcodeRow.covers, opcodeRow, encode, formatC, beq_iff_eq]
  ext k hk
  interval_cases k <;> simp

theorem pushg (ch : Byte) : Statement (.pushg ch) := by
  simp only [Statement, OpcodeRow.covers, opcodeRow, encode, formatC, beq_iff_eq]
  ext k hk
  interval_cases k <;> simp

theorem compute : Statement .compute := by simp [Statement, OpcodeRow.covers, opcodeRow, encode, formatN]

theorem sel (idx : Index) : Statement (.sel idx) := by
  simp only [Statement, OpcodeRow.covers, opcodeRow, encode, formatI, beq_iff_eq]
  ext k hk
  interval_cases k <;> simp

end Sys2Proof.Laws.CoveredByItsRow
end

