-- ==== Sys2Proof/Laws/Port.lean ====
section
/-!
SUPPORT. The port: admitted accesses at the window's slots, the word on the lanes, and a command write as the next
event (R62, R63, R65, R88).
-/

namespace Sys2Proof.Machine

@[simp] theorem wordOfLanes_lanesOfWord (v : Word) : wordOfLanes (lanesOfWord v) = v := by
  simp only [wordOfLanes, lanesOfWord]
  ext k hk
  interval_cases k <;> simp

/-- When an access is admitted, in the terms of the access. -/
theorem accessRefusal_eq_none {c : Config} {a : Access} :
    accessRefusal c a = none ↔
      accessWidth a = 4 ∧ accessIsBurst a = false ∧ c.base ≤ accessAddr a ∧ accessAddr a ≤ c.base + 0x3F ∧
        (accessAddr a - c.base) % 4 = 0 := by
  unfold accessRefusal
  split
  · next h => simp [h]
  split
  · next h => simp [h]
  split
  · next h => simp only [reduceCtorEq, false_iff]; omega
  split
  · next h => simp only [reduceCtorEq, false_iff]; omega
  · next h1 h2 h3 h4 =>
    simp only [true_iff]
    exact ⟨by simpa using h1, by simpa using h2, by omega, by omega, by simpa using h4⟩

theorem accessRefusal_readAt {c : Config} {off : Nat} (h : off ≤ 0x3C) (h4 : off % 4 = 0) :
    accessRefusal c (readAt c off) = none := by
  refine accessRefusal_eq_none.mpr ⟨rfl, rfl, ?_, ?_, ?_⟩ <;> simp only [readAt, accessAddr] <;> omega

theorem accessRefusal_writeAt {c : Config} {off : Nat} {v : Word} (h : off ≤ 0x3C) (h4 : off % 4 = 0) :
    accessRefusal c (writeAt c off v) = none := by
  refine accessRefusal_eq_none.mpr ⟨rfl, rfl, ?_, ?_, ?_⟩ <;> simp only [writeAt, accessAddr] <;> omega

@[simp] theorem accessSlot_readAt (c : Config) (off : Nat) : accessSlot c (readAt c off) = regAt off := by
  simp [accessSlot, readAt, accessAddr]

@[simp] theorem accessSlot_writeAt (c : Config) (off : Nat) (v : Word) :
    accessSlot c (writeAt c off v) = regAt off := by
  simp [accessSlot, writeAt, accessAddr]

/-- An admitted read is answered with the register's value (R64). -/
theorem hostAccess_readAt {s : State} {off : Nat} (h : off ≤ 0x3C) (h4 : off % 4 = 0) :
    hostAccess (readAt s.cfg off) s = hostRead (regAt off) s := by
  have hslot := accessSlot_readAt s.cfg off
  have hr := accessRefusal_readAt (c := s.cfg) h h4
  unfold hostAccess
  rw [hr]
  exact congrArg (hostRead · s) hslot

/-- An admitted write acts by its slot (R65). -/
theorem hostAccess_writeAt {s : State} {off : Nat} {v : Word} (h : off ≤ 0x3C) (h4 : off % 4 = 0) :
    hostAccess (writeAt s.cfg off v) s = hostWrite (regAt off) v s := by
  have hslot := accessSlot_writeAt s.cfg off v
  have hr := accessRefusal_writeAt (c := s.cfg) (v := v) h h4
  unfold hostAccess
  rw [hr]
  exact congrArg₂ (hostWrite · · s) hslot (wordOfLanes_lanesOfWord v)

/-- A step on a command write dispatches the word (R88). -/
theorem step_cmdWrite {s : State} {v : Word} {rest : List Event} (h : s.pending = cmdWrite s.cfg v :: rest) :
    step s = dispatchCommand v { s with pending := rest } := by
  rw [step_access h (accessRefusal_writeAt (by omega) (by omega))]
  exact hostAccess_writeAt (s := { s with pending := rest }) (by omega) (by omega)

/-- An admitted access changes the block only where it executes or loses a command. -/
theorem step_access_cases {s t : State} {a : Access} {rest : List Event}
    (hp : s.pending = .access a :: rest) (ha : accessRefusal s.cfg a = none) (h : step s = .next t) :
    (∃ v, t = answer v { s with pending := rest }) ∨ t = { s with pending := rest } ∨
    (s.losesCommand ∧ t = { s with pending := rest, cmdlost := true }) ∨
    (∃ i, s.executes (.ok i) ∧ exec i { s with pending := rest } = .next t) ∨
    (∃ e, s.executes (.error e) ∧ t = raiseError .illegalCommand { s with pending := rest }) := by
  rw [step_access hp ha] at h
  obtain ⟨hr, ⟨v, -, rfl⟩ | ⟨addr, lanes, burst, rfl, hs, h⟩ | rfl⟩ := hostAccess_cases h
  · exact .inl ⟨v, rfl⟩
  · obtain ⟨hb, rfl⟩ | ⟨i, hb, hd, h⟩ | ⟨e, hb, hd, rfl⟩ := dispatchCommand_cases h
    · exact .inr (.inr (.inl ⟨⟨hb, addr, lanes, burst, rest, hp, hr, hs⟩, rfl⟩))
    · exact .inr (.inr (.inr (.inl ⟨i, ⟨hb, addr, lanes, burst, rest, hp, hr, hs, hd⟩, h⟩)))
    · exact .inr (.inr (.inr (.inr ⟨e, ⟨hb, addr, lanes, burst, rest, hp, hr, hs, hd⟩, rfl⟩)))
  · exact .inr (.inl rfl)

/-- Everything a step can do, by what the step is about: a sequencer step, an idle sequencer slot, a read, an ignored
write, a lost command, an executed command, an illegal word, a reset. -/
theorem step_kinds {s t : State} (h : step s = .next t) :
    (∃ rest, s.sequences ∧ sequencerStep { s with pending := rest } = .next t) ∨
    (∃ rest, t = { s with pending := rest }) ∨
    (∃ rest v, t = answer v { s with pending := rest }) ∨
    (∃ rest, s.losesCommand ∧ t = { s with pending := rest, cmdlost := true }) ∨
    (∃ rest i, s.executes (.ok i) ∧ exec i { s with pending := rest } = .next t) ∨
    (∃ rest e, s.executes (.error e) ∧ t = raiseError .illegalCommand { s with pending := rest }) ∨
    (∃ rest answers draws, s.resets ∧
      t = { State.resetFor s.cfg with pending := rest, answers := answers, draws := draws }) := by
  have hseq : ∀ rest, (nextTurn s.cfg s.pending = none ∨ nextTurn s.cfg s.pending = some (.sequencer, rest)) →
      sequencerStep { s with pending := rest } = .next t →
      (∃ rest, s.sequences ∧ sequencerStep { s with pending := rest } = .next t) ∨
      (∃ rest, t = { s with pending := rest }) := by
    intro rest hp h
    by_cases hph : s.phase = .scan
    · exact .inl ⟨rest, ⟨hph, hp.imp id fun hp => ⟨rest, hp⟩⟩, h⟩
    · obtain ⟨-, rfl⟩ | ⟨hp', -⟩ | ⟨hp', -⟩ | ⟨hp', -⟩ := sequencerStep_cases h
      · exact .inr ⟨rest, rfl⟩
      all_goals exact absurd hp' hph
  obtain ⟨hp, h⟩ | ⟨e, rest, hp, h⟩ := step_cases h
  · exact (hseq s.pending (.inl hp) h).elim .inl (.inr ∘ .inl)
  obtain ⟨a, rfl, -⟩ | ⟨rfl, h⟩ | ⟨he, ans, dr, rfl⟩ := runEvent_cases h
  · obtain ⟨v, rfl⟩ | rfl | ⟨hl, rfl⟩ | ⟨i, hi, h⟩ | ⟨e, he, rfl⟩ :=
      step_access_cases (nextTurn_access hp).1 (nextTurn_access hp).2 ((step_of_turn hp).trans h)
    · exact .inr (.inr (.inl ⟨rest, v, rfl⟩))
    · exact .inr (.inl ⟨rest, rfl⟩)
    · exact .inr (.inr (.inr (.inl ⟨rest, hl, rfl⟩)))
    · exact .inr (.inr (.inr (.inr (.inl ⟨rest, i, hi, h⟩))))
    · exact .inr (.inr (.inr (.inr (.inr (.inl ⟨rest, e, he, rfl⟩)))))
  · exact (hseq rest (.inr hp) h).elim .inl (.inr ∘ .inl)
  · refine .inr (.inr (.inr (.inr (.inr (.inr ⟨rest, ans, dr, ⟨rest, ?_⟩, rfl⟩)))))
    obtain ⟨a, rfl⟩ | rfl := he
    · exact .inl ⟨a, hp⟩
    · exact .inr hp

/-! ### Runs -/

/-- The model's runs are the interface's. -/
theorem run_eq_core_run (k : Nat) (s : State) : Host.Core.run Sys2Proof.core k s = run k s := by
  induction k generalizing s with
  | zero => rfl
  | succ k ih =>
    cases h : step s with
    | next t =>
      have hc : Sys2Proof.core.step s = .next t := h
      simpa only [Host.Core.run, run, hc, h] using ih t
    | fault f =>
      have hc : Sys2Proof.core.step s = .fault f := h
      simp only [Host.Core.run, run, hc, h]
      rfl
    | refused r =>
      have hc : Sys2Proof.core.step s = .refused r := h
      simp only [Host.Core.run, run, hc, h]
      rfl

@[simp] theorem run_zero (s : State) : run 0 s = .next s := rfl

theorem run_succ_of_next {k : Nat} {s t : State} (h : step s = .next t) : run (k + 1) s = run k t := by
  simp only [run, h]

theorem run_succ_of_fault {k : Nat} {s : State} {f : Fault} (h : step s = .fault f) :
    run (k + 1) s = .fault f := by
  simp only [run, h]

theorem run_succ_of_refused {k : Nat} {s : State} {r : Refusal} (h : step s = .refused r) :
    run (k + 1) s = .refused r := by
  simp only [run, h]

/-- Runs compose. -/
theorem run_add {m n : Nat} {s t : State} (h : run m s = .next t) : run (m + n) s = run n t := by
  induction m generalizing s with
  | zero => cases h; rw [Nat.zero_add]
  | succ m ih =>
    rw [Nat.add_right_comm]
    cases hs : step s with
    | next u => rw [run_succ_of_next hs] at h ⊢; exact ih h
    | fault f => rw [run_succ_of_fault hs] at h; cases h
    | refused r => rw [run_succ_of_refused hs] at h; cases h

/-! ### The end of a run -/

theorem runToEnd_of_ended {k : Nat} {s : State} (h : s.ended) : runToEnd k s = .next s := by
  cases k with
  | zero => rfl
  | succ k => exact if_pos h

theorem runToEnd_succ_of_next {k : Nat} {s t : State} (h : ¬s.ended) (hs : step s = .next t) :
    runToEnd (k + 1) s = runToEnd k t := by
  rw [runToEnd, if_neg h, hs]

/-- A run that comes by an ended state stops at the first one, after steps of `run`. -/
theorem runToEnd_of_run {k : Nat} {s t : State} (h : run k s = .next t) (ht : t.ended) :
    ∃ n u, n ≤ k ∧ run n s = .next u ∧ u.ended ∧ runToEnd k s = .next u ∧
      ∀ m < n, ∀ v, run m s = .next v → ¬v.ended := by
  induction k generalizing s with
  | zero => cases h; exact ⟨0, t, Nat.le_refl 0, rfl, ht, rfl, nofun⟩
  | succ k ih =>
    by_cases he : s.ended
    · exact ⟨0, s, Nat.zero_le _, rfl, he, runToEnd_of_ended he, nofun⟩
    cases hs : step s with
    | next w =>
      rw [run_succ_of_next hs] at h
      obtain ⟨n, u, hn, hu, hue, hr, hfirst⟩ := ih h
      refine ⟨n + 1, u, Nat.succ_le_succ hn, (run_succ_of_next hs).trans hu, hue,
        (runToEnd_succ_of_next he hs).trans hr, fun m hm v hv => ?_⟩
      cases m with
      | zero => cases hv; exact he
      | succ m => exact hfirst m (Nat.lt_of_succ_lt_succ hm) v ((run_succ_of_next hs).symm.trans hv)
    | fault f => rw [run_succ_of_fault hs] at h; cases h
    | refused r => rw [run_succ_of_refused hs] at h; cases h

/-- Of a schedule in which the host makes no access, the first event moves. -/
theorem nextTurn_of_no_access {c : Config} {e : Event} {rest : List Event} (h : makesAccess e = false) :
    nextTurn c (e :: rest) = some (e, rest) := by
  cases e with
  | access a => cases h
  | _ => rfl

/-- What is left of an ended run: its last state for ever, an idle sequencer slot, or a reset (R240). -/
theorem step_of_ended {s : State} (h : s.ended) :
    ∃ t, step s = .next t ∧ t.ended ∧ t.pending = s.pending.tail ∧
      (s.resets ∨ t = { s with pending := s.pending.tail }) := by
  obtain ⟨hno, hidle⟩ := h
  cases hp : s.pending with
  | nil =>
    have hs : step s = .next s := (step_nil hp).trans (sequencerStep_of_idle hidle)
    exact ⟨s, hs, ⟨hno, hidle⟩, hp, .inr (by rw [List.tail_nil, ← hp])⟩
  | cons e rest =>
    have hrest : ∀ x ∈ rest, makesAccess x = false := fun x hx => hno x (by rw [hp]; exact List.mem_cons_of_mem e hx)
    have hturn : nextTurn s.cfg s.pending = some (e, rest) := by
      rw [hp]; exact nextTurn_of_no_access (hno e (by rw [hp]; exact List.mem_cons_self ..))
    rw [step_of_turn hturn, List.tail_cons]
    cases e with
    | access a => cases hno (.access a) (by rw [hp]; exact List.mem_cons_self ..)
    | sequencer =>
      exact ⟨_, sequencerStep_of_idle (s := { s with pending := rest }) hidle, ⟨hrest, hidle⟩, rfl, .inr rfl⟩
    | reset a =>
      obtain ⟨ans, dr, hr⟩ := runEvent_reset a { s with pending := rest }
      exact ⟨_, hr, ⟨hrest, rfl⟩, rfl, .inl ⟨rest, .inl ⟨a, hturn⟩⟩⟩
    | powerLoss => exact ⟨_, rfl, ⟨hrest, rfl⟩, rfl, .inl ⟨rest, .inr hturn⟩⟩

end Sys2Proof.Machine
end

