-- ==== Sys2Proof/Laws/Sequencer.lean ====
section
/-!
SUPPORT. The two sequencer steps in a state that meets the invariant (R127, R128), what leaves the invariant alone,
and `RZERO` as a fact about the remainder.
-/

namespace Sys2Proof.Machine

/-- The invariant speaks of no schedule, answer or free value, and not of `RIDX` or `CMDLOST`. -/
theorem State.Inv.of_same_block {s t : State} (h : s.Inv)
    (e : t = { s with
      pending := t.pending, answers := t.answers, draws := t.draws, cmdlost := t.cmdlost, ridx := t.ridx }) :
    t.Inv := by
  rw [e]
  exact ⟨h.legal, h.wf, ⟨h.spec.lengths, h.spec.noResult, h.spec.result, h.spec.scanning⟩, h.scanPos,
    h.dataValued, h.genValued, h.zeroFlag, h.midScan⟩

/-- No bit of the remainder is 1. -/
theorem allZero_eq (r : Bitstring) : allZero r = decide (true ∉ r) := by
  rw [Bool.eq_iff_iff, allZero]; simp

/-- Everything the scan step does in a state that meets the invariant (R127). -/
theorem scanStep_spec {s : State} (h : s.Inv) (hp : s.phase = .scan) (hi : s.scanI < s.dlen) :
    ∃ d g work, s.dataBits = some d ∧ s.genBits = some g ∧
      Cells.putSlice s.work s.scanI
        (xeng (((scanUpTo g (augment d g) s.scanI).drop s.scanI).take g.length) g
          ((scanUpTo g (augment d g) s.scanI).getD s.scanI false)) = some work ∧
      Cells.slice s.work s.scanI s.glen = some (((scanUpTo g (augment d g) s.scanI).drop s.scanI).take g.length) ∧
      Cells.get s.work s.scanI = some ((scanUpTo g (augment d g) s.scanI).getD s.scanI false) ∧
      scanStep s = .next { s with work := work, scanI := s.scanI + 1 } ∧
      Cells.slice work 0 (s.dlen + s.glen - 1) = some (scanUpTo g (augment d g) (s.scanI + 1)) := by
  obtain ⟨d, g, hd, hg, hw⟩ := h.midScan hp
  obtain ⟨-, -, h1, h2, h3, h4⟩ := h.spec.scanning hp
  have hdl := length_of_slice hd
  have hgl := length_of_slice hg
  have hal : (scanUpTo g (augment d g) s.scanI).length = s.dlen + s.glen - 1 := length_of_slice hw
  have hlead : Cells.get s.work s.scanI = some ((scanUpTo g (augment d g) s.scanI).getD s.scanI false) := by
    have := get_of_slice hw (j := s.scanI) (by omega)
    rw [Nat.zero_add] at this
    rw [this, List.getD, List.getElem?_eq_getElem (by omega)]; rfl
  have hwin : Cells.slice s.work s.scanI s.glen =
      some (((scanUpTo g (augment d g) s.scanI).drop s.scanI).take g.length) := by
    have := slice_window hw (o := s.scanI) (n := s.glen) (by omega)
    rw [Nat.zero_add] at this
    rw [this, hgl]
  obtain ⟨work, hput⟩ := putSlice_of_fits (cells := s.work) (i := s.scanI)
    (bs := xeng (((scanUpTo g (augment d g) s.scanI).drop s.scanI).take g.length) g
      ((scanUpTo g (augment d g) s.scanI).getD s.scanI false))
    (by have := h.wf.2.2.1; simp; omega)
  refine ⟨d, g, work, hd, hg, hput, hwin, hlead, ?_, ?_⟩
  · unfold scanStep
    rw [hlead, hwin, show Cells.slice s.gen 0 s.glen = some g from hg]
    simp only [withValue_some, hput]
  · rw [slice_putSlice_window hw hput (by simp; omega)]
    simp only [scanUpTo, scanAt, length_xeng]
    congr 3
    simp
    omega

/-- Everything the finish step does in a state that meets the invariant (R128). -/
theorem finishStep_spec {s : State} (h : s.Inv) (hp : s.phase = .scan) (hi : s.scanI = s.dlen) :
    ∃ d g rem, s.dataBits = some d ∧ s.genBits = some g ∧
      Cells.slice s.work s.dlen (s.glen - 1) = some (crc d g) ∧ Cells.putSlice s.rem 0 (crc d g) = some rem ∧
      (crc d g).length = s.glen - 1 ∧
      finishStep s = .next { s with
        rem := rem, rlen := s.glen - 1, rzero := allZero (crc d g), rvalid := true, phase := .idle } := by
  obtain ⟨d, g, hd, hg, hw⟩ := h.midScan hp
  obtain ⟨-, -, h1, h2, h3, h4⟩ := h.spec.scanning hp
  have hdl := length_of_slice hd
  have hgl := length_of_slice hg
  have hal : (scanUpTo g (augment d g) s.scanI).length = s.dlen + s.glen - 1 := length_of_slice hw
  have hr : Cells.slice s.work s.dlen (s.glen - 1) = some (crc d g) := by
    have := slice_window hw (o := s.dlen) (n := s.glen - 1) (by omega)
    rw [Nat.zero_add] at this
    rw [this, hi, crc, hdl, hgl]
  obtain ⟨rem, hput⟩ := putSlice_of_fits (cells := s.rem) (i := 0) (bs := crc d g)
    (by have := h.wf.2.2.2; have := length_of_slice hr; omega)
  refine ⟨d, g, rem, hd, hg, hr, hput, length_of_slice hr, ?_⟩
  unfold finishStep
  rw [hr]; simp only [withValue_some, hput]

end Sys2Proof.Machine
end

