-- ==== Sys2Proof/Laws/Status.lean ====
section
/-!
SUPPORT. The bits of the STATUS word (R35).
-/

namespace Sys2Proof.Machine

theorem getLsbD_flagBit (b : Bool) {k j : Nat} (hj : j < 32) :
    (flagBit b k).getLsbD j = (decide (j = k) && b) := by
  simp only [flagBit, BitVec.getLsbD_shiftLeft, BitVec.getLsbD_setWidth]
  by_cases h : j = k
  · subst h; simp [hj]
  · by_cases hl : j < k
    · simp [hl, h]
    · simp [hl, h, show j - k ≠ 0 by omega]

theorem getLsbD_errcodeField (e : ErrCode) {j : Nat} (hj : j < 32) :
    ((e.code.setWidth 32 : Word) <<< 4).getLsbD j = (decide (4 ≤ j ∧ j < 8) && e.code.getLsbD (j - 4)) := by
  simp only [BitVec.getLsbD_shiftLeft, BitVec.getLsbD_setWidth]
  by_cases h : j < 4
  · simp [h, hj]
  · by_cases h8 : j < 8
    · simp [h, hj, h8, show j - 4 < 32 by omega, show 4 ≤ j by omega]
    · simp [h, hj, h8, show j - 4 < 32 by omega, BitVec.getLsbD_of_ge e.code (j - 4) (by omega)]

/-- STATUS bit by bit. -/
theorem getLsbD_statusWord (s : State) {j : Nat} (hj : j < 32) :
    (statusWord s).getLsbD j =
      ((decide (j = 0) && s.busy) || (decide (j = 1) && s.rvalid) || (decide (j = 2) && s.err) ||
        (decide (j = 3) && s.rzero) || (decide (4 ≤ j ∧ j < 8) && s.errcode.code.getLsbD (j - 4)) ||
        (decide (j = 8) && s.invch) || (decide (j = 9) && s.dovf) || (decide (j = 10) && s.govf) ||
        (decide (j = 11) && s.cmdlost)) := by
  simp only [statusWord, BitVec.getLsbD_or]
  simp only [getLsbD_errcodeField _ hj, getLsbD_flagBit _ hj]

/-- The error field of STATUS. -/
theorem statusWord_errcode (s : State) : (statusWord s).extractLsb' 4 4 = s.errcode.code := by
  ext j hj
  rw [BitVec.getElem_extractLsb', getLsbD_statusWord _ (by omega)]
  interval_cases j <;> simp

end Sys2Proof.Machine
end

