-- ==== Sys2Proof/Tests/Slice0.lean ====
section
/-!
SUPPORT. The model's own tests and the witnesses of the statements' hypotheses. Expected values come from
spec/95_test_vectors.md (its ids are named) or from the examples of the rules; words are written out bit by bit from
the patterns of spec/30_encoding.md rule R86. A theorem `witness_<Name>…` shows concrete data that meet all hypotheses
of `Obligations.<Name>` together.
-/

namespace Sys2Proof.Tests

open Sys2Proof Sys2Proof.Machine

/-! ### Helpers -/

/-- The state of an outcome, if it is a next state. -/
def nextState (o : Host.Outcome State Fault Refusal) : Option State :=
  match o with
  | .next s => some s
  | .fault _ => none
  | .refused _ => none

/-- STATUS after an outcome. -/
def statusAfter (o : Host.Outcome State Fault Refusal) : Option Word := (nextState o).map statusWord

/-- The instance of the vectors of sections 2.3 and 2.4, `MAX_BITS = 4`. -/
def small : Config := ⟨4, 64, true⟩

/-- That instance right after reset. -/
def fresh : State := State.resetFor small

/-- `DATA = 101`, `GEN = 11` (program P3), at capacity: `3 + 2 - 1 = 4`. -/
def loaded : State := { fresh with
  data := [some true, some false, some true, none], dlen := 3
  gen := [some true, some true, none, none], glen := 2 }

/-- `loaded`, right after an accepted COMPUTE. -/
def scanning : State := { loaded with
  work := [some true, some false, some true, some false], scanI := 0, phase := .scan }

/-- `loaded`, with the scan done. -/
def finishing : State := { loaded with
  work := [some false, some false, some false, some false], scanI := 3, phase := .scan }

/-- `loaded`, with its result on display. -/
def result : State := { finishing with
  rem := [some false, none, none, none], rlen := 1, rvalid := true, rzero := true, phase := .idle }

/-- Both buffers full, `DATA = GEN = 1011`. -/
def full : State := { fresh with
  data := [some true, some false, some true, some true], dlen := 4
  gen := [some true, some false, some true, some true], glen := 4 }

theorem fresh_inv : fresh.Inv :=
  ⟨by decide, by decide, ⟨by decide, by decide, nofun, nofun⟩, by decide, ⟨_, rfl⟩, ⟨_, rfl⟩, nofun, nofun⟩

theorem loaded_inv : loaded.Inv :=
  ⟨by decide, by decide, ⟨by decide, by decide, nofun, nofun⟩, by decide, ⟨_, rfl⟩, ⟨_, rfl⟩, nofun, nofun⟩

theorem full_inv : full.Inv :=
  ⟨by decide, by decide, ⟨by decide, by decide, nofun, nofun⟩, by decide, ⟨_, rfl⟩, ⟨_, rfl⟩, nofun, nofun⟩

theorem scanning_inv : scanning.Inv :=
  ⟨by decide, by decide, ⟨by decide, by decide, nofun, by decide⟩, by decide, ⟨_, rfl⟩, ⟨_, rfl⟩, nofun,
    fun _ => ⟨_, _, rfl, rfl, rfl⟩⟩

theorem finishing_inv : finishing.Inv :=
  ⟨by decide, by decide, ⟨by decide, by decide, nofun, by decide⟩, by decide, ⟨_, rfl⟩, ⟨_, rfl⟩, nofun,
    fun _ => ⟨_, _, rfl, rfl, rfl⟩⟩

theorem result_inv : result.Inv :=
  ⟨by decide, by decide,
    ⟨by decide, nofun, fun _ => ⟨by decide, by decide, by decide, by decide, by decide, _, _, rfl, rfl, rfl⟩, nofun⟩,
    by decide, ⟨_, rfl⟩, ⟨_, rfl⟩, fun _ => ⟨_, rfl, rfl⟩, nofun⟩

/-! ### Well-formed instances (R8, R9); no instruction is ill formed (R85) -/

theorem test_wf_reference : Config.reference.wf = true := by decide
theorem test_wf_refuses_capacity_zero : Config.wf ⟨0, 0, false⟩ = false := by decide
theorem test_wf_refuses_capacity_65536 : Config.wf ⟨65536, 0, false⟩ = false := by decide
theorem test_wf_accepts_capacity_bounds : Config.wf ⟨1, 64, false⟩ = true ∧ Config.wf ⟨65535, 0, true⟩ = true := by
  decide
theorem test_wf_refuses_misaligned_base : Config.wf ⟨99, 32, false⟩ = false := by decide
theorem test_wf_every_operand : (Instr.pushd 0x32).wf = true ∧ (Instr.sel 0xFFFF).wf = true := by decide

/-! ### Decoding: words from R86's patterns, section 2.5 -/

theorem test_decode_nop : decode 0b0000000000000000_00000000_0000_0000 = .ok .nop := by decide
theorem test_decode_clear : decode 0b0000000000000000_00000000_0000_0001 = .ok .clear := by decide
theorem test_decode_pushd_one : decode 0b0000000000000000_00110001_0000_0010 = .ok (.pushd 0x31) := by decide
theorem test_decode_pushd_any_byte : decode 0b0000000000000000_10000001_0000_0010 = .ok (.pushd 0x81) := by decide
theorem test_decode_pushg_zero : decode 0b0000000000000000_00110000_0000_0011 = .ok (.pushg 0x30) := by decide
theorem test_decode_compute : decode 0b0000000000000000_00000000_0000_0100 = .ok .compute := by decide
theorem test_decode_sel : decode 0b1000000000000011_00000000_0000_0101 = .ok (.sel 0x8003) := by decide
theorem test_decode_reserved_opcodes :
    decode 0x00000006 = .error .reservedOpcode ∧ decode 0xFFFFFFFF = .error .reservedOpcode := by decide
theorem test_decode_reserved_bits :
    decode 0x00000010 = .error .reservedBitSet ∧ decode 0x00000011 = .error .reservedBitSet ∧
    decode 0x00003112 = .error .reservedBitSet ∧ decode 0x00013103 = .error .reservedBitSet ∧
    decode 0x00000014 = .error .reservedBitSet ∧ decode 0x00008005 = .error .reservedBitSet := by decide
theorem test_encode_common_words :
    encode (.pushd 0x30) = 0x00003002 ∧ encode (.pushd 0x31) = 0x00003102 ∧ encode (.pushg 0x30) = 0x00003003 ∧
    encode (.pushg 0x31) = 0x00003103 ∧ encode (.sel 3) = 0x00030005 ∧ encode .compute = 0x00000004 := by decide
theorem test_decodeTableWord : decodeTableWord 32 0x00030005 = some (.sel 3) ∧ decodeTableWord 32 0x7 = none := by
  decide

/-! ### The division as a function: sections 1, 2.1 and 2.2 -/

theorem test_xeng_vectors :
    xeng [true, false, false, true] [true, true, false, true] true = [false, true, false, false] ∧
    xeng [true, false, false, true] [true, true, false, true] false = [true, false, false, true] := by decide
/-- W1. -/
theorem test_crc_W1 :
    crc [true, true, false, true, false, true, true, false, true, true] [true, false, false, true, true] =
      [true, true, true, false] := by decide
/-- W2 as corrected by 90_conflicts.md C1. -/
theorem test_crc_W2_corrected :
    crc [true, false, true, false, false, false, false] [true, true, false, true] = [true, false, true] := by decide
/-- V-D10, a generator longer than the data. -/
theorem test_crc_longer_generator :
    crc [true, true, false, true] [true, true, false, true, true, false, true] =
      [true, false, true, false, false, false] := by decide
/-- V-D13 and V-D14, generators with first bit 0. -/
theorem test_crc_first_bit_zero :
    crc [true, false, true, true] [false, true, true] = [false, true] ∧
    crc [true] [false, true, true] = [true, true] := by decide

/-! ### One step of each command and of the sequencer -/

/-- V-K1. -/
theorem test_nop : nextState (exec .nop loaded) = some loaded := by decide
/-- V-K3's end: every flag and both lengths are 0. -/
theorem test_clear :
    nextState (exec .clear { loaded with invch := true, errcode := .invalidCharacter, ridx := 7 }) =
      some { fresh with data := loaded.data, gen := loaded.gen } := by decide
/-- V-I2: an invalid byte is dropped and sets INVCH. -/
theorem test_pushd_invalid :
    statusAfter (exec (.pushd 0x32) loaded) = some 0x00000100 ∧
    (nextState (exec (.pushd 0x32) loaded)).map (·.dlen) = some 3 := by decide
/-- V-I3 and V-I4: at a full buffer. -/
theorem test_pushd_full :
    statusAfter (exec (.pushd 0x31) full) = some 0x00000200 ∧
    statusAfter (exec (.pushd 0x00) full) = some 0x00000100 := by decide
/-- V-I6: GOVF, and the result is withdrawn. -/
theorem test_pushg_full_withdraws :
    (nextState (exec (.pushg 0x31) { result with glen := 4 })).map
      (fun t => (t.glen, t.govf, t.rvalid, t.rlen, t.rzero)) = some (4, true, false, 0, false) := by decide
/-- R102's example, its last character. -/
theorem test_pushg_appends :
    (nextState (exec (.pushg 0x31) loaded)).map (·.genBits) = some (some [true, true, true]) := by decide
/-- V-E2, V-E3 and V-E7: the error priority. -/
theorem test_compute_priority :
    statusAfter (exec .compute { full with glen := 0, dovf := true, invch := true }) = some 0x00000314 ∧
    statusAfter (exec .compute { full with glen := 0, dovf := true }) = some 0x00000224 ∧
    statusAfter (exec .compute { full with glen := 2, dovf := true }) = some 0x00000234 := by decide
/-- P3's accepted COMPUTE, at capacity. -/
theorem test_compute_accepts_at_capacity : nextState (exec .compute loaded) = some scanning := by decide
/-- R150's example. -/
theorem test_sel :
    (nextState (exec (.sel 3) result)).bind (fun t => regRead t (some .ridx)) = some 0x00000003 := by decide
/-- W2's method on P3: lead 1, the window `10` becomes `01`. -/
theorem test_scan_step :
    nextState (sequencerStep scanning) =
      some { scanning with work := [some false, some true, some true, some false], scanI := 1 } := by decide
/-- P3's end of `wait`. -/
theorem test_finish_step :
    nextState (sequencerStep finishing) = some result ∧ statusWord result = 0x0000000A := by decide
/-- V-K2's kind of write on P3's result: STATUS 0x0000004E. -/
theorem test_illegal_word :
    statusAfter (step { result with pending := [cmdWrite small 0x00000006] }) = some 0x0000004E := by decide
/-- V-K4: a CLEAR written while busy. -/
theorem test_command_lost :
    nextState (step { scanning with pending := [cmdWrite small 0x00000001] }) =
      some { scanning with cmdlost := true } ∧
    statusWord { scanning with cmdlost := true } = 0x00000801 := by decide
/-- V-K8. -/
theorem test_reset_mid_scan :
    nextState (step { scanning with pending := [.reset none] }) = some fresh := by decide

/-! ### Registers and accesses -/

/-- V-K9. -/
theorem test_cap : regRead State.reset (some .cap) = some 0x00000063 := by decide
/-- Section 2.6's pattern, on P3's result `1010`: data, remainder, and past the end. -/
theorem test_character_ports :
    regRead { result with ridx := 1 } (some .framech) = some 0x130 ∧
    regRead { result with ridx := 2 } (some .framech) = some 0x131 ∧
    regRead { result with ridx := 3 } (some .framech) = some 0x130 ∧
    regRead { result with ridx := 4 } (some .framech) = some 0 ∧
    regRead result (some .remch) = some 0x130 ∧
    regRead { result with ridx := 1 } (some .remch) = some 0 := by decide
/-- V-K5 to V-K7. -/
theorem test_other_slots :
    nextState (step { loaded with pending := [.access (writeAt small 0x04 0xFFFFFFFF)] }) = some loaded ∧
    regRead loaded (regAt 0x00) = some 0 ∧ regRead loaded (regAt 0x24) = some 0 := by decide
/-- A read hands the value to the host. -/
theorem test_read_answers :
    nextState (step { loaded with pending := [.access (readAt small 0x0C)] }) =
      some { loaded with answers := [0x00000003] } := by decide
/-- R62's refused accesses: narrow, wide, burst, outside on both sides, misaligned. -/
theorem test_refused_accesses :
    accessRefusal small (.read 64 2 false) = some (.accessWidth true) ∧
    accessRefusal small (.write 64 [0, 0, 0, 0, 0, 0, 0, 0] false) = some (.accessWidth true) ∧
    accessRefusal small (.read 64 4 true) = some (.accessBurst true) ∧
    accessRefusal small (.read 60 4 false) = some (.accessOutsideWindow true) ∧
    accessRefusal small (.read 128 4 false) = some (.accessOutsideWindow true) ∧
    accessRefusal small (.read 66 4 false) = some (.accessMisaligned true) ∧
    accessRefusal small (.read 124 4 false) = none := by decide
/-- R239: a host that is stuck at a refused access does not stop the sequencer, which takes W2's scan step. -/
theorem test_stuck_host_does_not_stop_the_sequencer :
    nextState (step { scanning with pending := [.access (.read 64 2 false), .access (readAt small 4)] }) =
      some { scanning with
        work := [some false, some true, some true, some false], scanI := 1
        pending := [.access (.read 64 2 false), .access (readAt small 4)] } := by decide
/-- R62 and R230: a reset that stands behind the refused access is taken, and the host stays stuck. -/
theorem test_reset_passes_a_stuck_host :
    nextState (step { scanning with pending := [.access (.read 64 2 false), .reset (some (readAt small 4))] }) =
      some { fresh with pending := [.access (.read 64 2 false)] } := by decide
/-- R240: the run ends at its last access in IDLE, before a reset that is still to come; P3's STATUS is then read. -/
theorem test_run_ends_before_a_later_reset :
    nextState (runToEnd 9 { finishing with pending := [.sequencer, .access (writeAt small 4 0), .sequencer, .reset none] }) =
      some { result with pending := [.sequencer, .reset none] } ∧
    ({ result with pending := [.sequencer, .reset none] } : State).observation[1]? = some (some 0x0000000A) := by
  decide
/-- R63: lane 0 carries bits 7 to 0. -/
theorem test_lanes : lanesOfWord 0x01020304 = [0x04, 0x03, 0x02, 0x01] ∧
    wordOfLanes [0x02, 0x31, 0x00, 0x00] = 0x00003102 := by decide
/-- The first instruction after reset, as the host places it (V-I1). -/
theorem test_withFetchWord :
    (nextState (step (State.reset.withFetchWord 32 0x00003102))).map
      (fun t => (t.dlen, t.dataBits, t.pending)) = some (1, some [true], []) := by decide

/-! ### Host lines (R90, R91) -/

theorem test_parse_pushd : parseLine ['p', 'u', 's', 'h', 'd', ' ', '\'', '1', '\'', ' ', '#', ' ', 'x'] =
    some (.cmd (.pushd 0x31)) := by decide
theorem test_parse_sel : parseLine ['s', 'e', 'l', ' ', '0', 'x', '1', 'F'] = some (.cmd (.sel 31)) := by decide
theorem test_parse_crc : parseLine ['c', 'r', 'c', ' ', '"', '1', '"', ',', ' ', '"', '1', '1', '"'] =
    some (.crc [0x31] [0x31, 0x31]) := by decide
/-- R91: `crc "1", "11"` with one busy read. -/
theorem test_assemble_crc :
    Line.assemble small ⟨1, 0, 0⟩ (.crc [0x31] [0x31, 0x31]) =
      [writeAt small 0 0x00000001, writeAt small 0 0x00003102, writeAt small 0 0x00003103,
       writeAt small 0 0x00003103, writeAt small 0 0x00000004, readAt small 4, readAt small 4] := by decide

/-! ### Witnesses: encoding and reset -/

theorem witness_DecodeEncodeAgree : (Instr.sel 0xFFFF).wf = true ∧ (Instr.pushd 0xFF).wf = true := by decide

theorem witness_EncodeInvertsDecode : decode 0xFFFF0005 = .ok (.sel 0xFFFF) := by decide

theorem witness_OpcodeTableDecodes :
    ⟨0x00000005, 0x0000FFFF⟩ ∈ opcodeTable ∧ OpcodeRow.covers ⟨0x00000005, 0x0000FFFF⟩ 0xFFFF0005 = true := by
  decide

/-- The legal capacities' two ends, and an idle state for the clause about CLEAR. -/
theorem witness_ResetAndClearValues :
    Config.Legal ⟨1, 0, false⟩ ∧ Config.Legal ⟨65535, 64, true⟩ ∧ small.Legal ∧
    result.cfg = small ∧ result.phase = .idle := by decide

theorem witness_ResetMeetsInvariant : Config.Legal ⟨1, 0, false⟩ ∧ Config.Legal ⟨65535, 64, true⟩ := by decide

/-- A reset with a coinciding read, and a loss of power, both in the middle of a scan. -/
theorem witness_ResetWinsFromAnyState :
    ({ scanning with pending := [.reset (some (readAt small 4)), .sequencer] } : State).pending =
      .reset (some (readAt small 4)) :: [.sequencer] ∧
    ({ scanning with pending := [.powerLoss] } : State).pending = .powerLoss :: [] := by decide

theorem witness_ClearMatchesReset :
    result.Inv ∧ result.phase = .idle ∧
      exec .clear result = .next { fresh with
        data := result.data, gen := result.gen, work := result.work, rem := result.rem, scanI := 3 } :=
  ⟨result_inv, rfl, rfl⟩

/-! ### Witnesses: the invariant and whole runs -/

/-- A scan step, and a step that executes a command. -/
theorem witness_StepKeepsInvariant :
    (scanning.Inv ∧ step scanning = .next { scanning with
      work := [some false, some true, some true, some false], scanI := 1 }) ∧
    ({ loaded with pending := [cmdWrite small 0x00000004] } : State).Inv ∧
      step { loaded with pending := [cmdWrite small 0x00000004] } = .next scanning :=
  ⟨⟨scanning_inv, rfl⟩, loaded_inv.of_same_block rfl, rfl⟩

/-- A schedule with every kind of event, all admitted. -/
theorem witness_InvariantRunsNeverFault :
    ({ scanning with
      pending := [.sequencer, .access (readAt small 4), .reset none, .powerLoss] } : State).Inv ∧
    ({ scanning with
      pending := [.sequencer, .access (readAt small 4), .reset none, .powerLoss] } : State).admissible :=
  ⟨scanning_inv.of_same_block rfl, by simp [State.admissible]; decide⟩

/-- Exactly the bound `1 + 4 + 1`. -/
theorem witness_EveryRunEnds :
    ({ scanning with pending := [.access (readAt small 4)] } : State).Inv ∧
    ({ scanning with pending := [.access (readAt small 4)] } : State).admissible ∧
    ({ scanning with pending := [.access (readAt small 4)] } : State).pending.length + small.maxBits + 1 ≤ 6 :=
  ⟨scanning_inv.of_same_block rfl, by simp [State.admissible]; decide, by decide⟩

/-- A scan, accesses still to come in IDLE, and ended runs with nothing, an idle slot, a reset and a loss of power to
come. -/
theorem witness_EndedRunKeepsItsObservation :
    (scanning.Inv ∧ scanning.phase = .scan) ∧
    (.access (readAt small 4) ∈ ({ result with pending := [.sequencer, .access (readAt small 4)] } : State).pending ∧
      .reset (some (readAt small 4)) ∈
        ({ result with pending := [.reset (some (readAt small 4))] } : State).pending) ∧
    (∀ p ∈ ([[], [.sequencer], [.reset none, .sequencer], [.powerLoss]] : List (List Event)),
      ({ result with pending := p } : State).phase = .idle ∧
      (∀ e ∈ p, e = .sequencer ∨ e = .reset none ∨ e = .powerLoss) ∧ ({ result with pending := p } : State).ended) :=
  ⟨⟨scanning_inv, rfl⟩, by decide, by decide⟩

/-- A scan with a refused access next, more of the host's behind it, and a sequencer slot. -/
theorem witness_SequencerRunsWhateverTheHostDoes :
    ({ scanning with
      pending := [.access (.read 64 2 false), .access (readAt small 4), .sequencer] } : State).Inv ∧
    scanning.phase = .scan ∧ accessRefusal small (.read 64 2 false) ≠ none :=
  ⟨scanning_inv.of_same_block rfl, rfl, by decide⟩

/-- `loaded` with other values where no rule reads. -/
def loadedTwin : State := { loaded with
  data := [some true, some false, some true, some true], work := full.data, rem := full.data, scanI := 2 }

/-- Two states that differ in `REM`, `WORK`, `SCAN_I` and a cell above `DLEN`; one run goes on and one stops at a
refused access. -/
theorem witness_UnreadableCellsNeverMatter :
    loaded.Inv ∧ loadedTwin.Inv ∧ loaded.sameForHost loadedTwin ∧
    run 1 loaded = .next loaded ∧
    run 1 { loaded with pending := [.access (.read 64 2 false)] } = .refused (.accessWidth true) :=
  ⟨loaded_inv,
    ⟨by decide, by decide, ⟨by decide, by decide, nofun, nofun⟩, by decide, ⟨_, rfl⟩, ⟨_, rfl⟩, nofun, nofun⟩,
    ⟨rfl, rfl, rfl, nofun, nofun⟩, rfl, rfl⟩

/-! ### Witnesses: the port and the registers -/

/-- An idle state whose next event writes a command word. -/
theorem witness_StepRunsDecodedCommand :
    loaded.phase = .idle ∧
    ({ loaded with pending := [cmdWrite small 0x00003202] } : State).pending = cmdWrite small 0x00003202 :: [] ∧
    decode 0x00003202 = .ok (.pushd 0x32) := by decide

/-- A busy state, an idle state, a command word and an illegal word; `lostWhileBusy` has the first's hypotheses. -/
theorem witness_DispatchTestsBusyFirst :
    ({ scanning with pending := [cmdWrite small 0x00000006] } : State).phase = .scan ∧
    ({ scanning with pending := [cmdWrite small 0x00000006] } : State).pending = cmdWrite small 0x00000006 :: [] ∧
    ({ loaded with pending := [cmdWrite small 0x00000006] } : State).phase = .idle ∧
    decode 0x00000006 = .error .reservedOpcode ∧ decode 0x00000000 = .ok .nop := by decide

theorem witness_IllegalWordRecordsError :
    decode 0x00000011 = .error .reservedBitSet ∧ result.phase = .idle ∧
    ({ result with pending := [cmdWrite small 0x00000011] } : State).pending = cmdWrite small 0x00000011 :: [] ∧
    ∃ u, exec .compute { result with errcode := .illegalCommand } = .next u ∧ u.phase = .scan :=
  ⟨rfl, rfl, rfl, _, rfl, rfl⟩

/-- The last admitted offset, the first address past the window, and a step with a refused access next. -/
theorem witness_OnlyAlignedWordsAdmitted :
    ({ loaded with pending := [.access (.read 124 4 false)] } : State).pending = .access (.read 124 4 false) :: [] ∧
    accessRefusal small (.read 124 4 false) = none ∧ accessRefusal small (.read 128 4 false) ≠ none ∧
    ∃ t, step { scanning with pending := [.access (.read 128 4 false)] } = .next t :=
  ⟨rfl, by decide, by decide, _, rfl⟩

/-- A refused access with the host's accesses alone behind it, in SCAN and in IDLE, and one with an access and then
each of the other events behind it. -/
theorem witness_RefusedAccessStopsOnlyTheHost :
    accessRefusal small (.read 128 4 false) ≠ none ∧
    (∀ e ∈ [Event.access (readAt small 4)], isAccess e = true) ∧ scanning.phase = .scan ∧ loaded.phase = .idle ∧
    (∀ e ∈ [Event.sequencer, .reset (some (readAt small 4)), .powerLoss],
      isAccess e = false ∧
      ({ scanning with
        pending := [.access (.read 128 4 false), .access (readAt small 4), e, .powerLoss] } : State).pending =
        .access (.read 128 4 false) :: ([.access (readAt small 4)] ++ e :: [.powerLoss])) := by decide

/-- The first offset, the second and the last. -/
theorem witness_WritesActOnlyOnCmd :
    (0x00 % 4 = 0 ∧ 0x00 ≤ 0x3C) ∧ (0x04 % 4 = 0 ∧ 0x04 ≤ 0x3C ∧ 0x04 ≠ 0x00) ∧
    (0x3C % 4 = 0 ∧ 0x3C ≤ 0x3C ∧ 0x3C ≠ 0x00) ∧
    ({ loaded with pending := [.access (writeAt small 0x3C 1)] } : State).pending =
      .access (writeAt small 0x3C 1) :: [] := by decide

theorem witness_ReadsChangeNothing :
    ({ result with pending := [.access (readAt small 0x20), .access (readAt small 0x20)] } : State).Inv ∧
    0x20 % 4 = 0 ∧ 0x20 ≤ 0x3C :=
  ⟨result_inv.of_same_block rfl, by decide⟩

theorem witness_LengthRegistersRead : result.Inv ∧ full.Inv := ⟨result_inv, full_inv⟩

theorem witness_ReservedSlotsReadZero :
    ({ loaded with pending := [.access (writeAt small 0x24 1)] } : State).pending =
      .access (writeAt small 0x24 1) :: [] := by decide

/-- The last index with a character, the first without one, and no result. -/
theorem witness_RemchReadsRemainder :
    (result.Inv ∧ result.rvalid = true ∧ result.ridx.toNat < result.rlen) ∧
    (({ result with ridx := 1 } : State).Inv ∧
      ¬(({ result with ridx := 1 } : State).rvalid = true ∧ ({ result with ridx := 1 } : State).ridx.toNat < 1)) ∧
    (loaded.Inv ∧ ¬(loaded.rvalid = true ∧ loaded.ridx.toNat < loaded.rlen)) :=
  ⟨⟨result_inv, by decide⟩, ⟨result_inv.of_same_block rfl, by decide⟩, loaded_inv, by decide⟩

theorem witness_FramechReadsFrame :
    (result.Inv ∧ result.rvalid = true) ∧ (loaded.Inv ∧ loaded.rvalid = false) :=
  ⟨⟨result_inv, rfl⟩, loaded_inv, rfl⟩

/-- The bytes next to the two characters. -/
theorem witness_CharactersAreZeroAndOne :
    ((0x2F : Byte) ≠ 0x30 ∧ (0x2F : Byte) ≠ 0x31) ∧ ((0x32 : Byte) ≠ 0x30 ∧ (0x32 : Byte) ≠ 0x31) := by decide

theorem witness_NoPartialResultIsRead :
    scanning.Inv ∧ scanning.phase = .scan ∧ loaded.Inv ∧ loaded.rvalid = false :=
  ⟨scanning_inv, rfl, loaded_inv, rfl⟩

/-! ### Witnesses: the commands -/

/-- A busy state with a command word next: the hypotheses of `lostWhileBusy`, for the word of every command. -/
theorem witness_lostWhileBusy :
    ∀ v ∈ ([0x00000000, 0x00000001, 0x00003102, 0x00003103, 0x00000004, 0x00030005] : List Word),
      ({ scanning with pending := [cmdWrite small v] } : State).phase = .scan ∧
      ({ scanning with pending := [cmdWrite small v] } : State).pending = cmdWrite small v :: [] :=
  fun _ _ => ⟨rfl, rfl⟩

theorem witness_NopChangesNothing :
    ({ scanning with pending := [cmdWrite small 0x00000000] } : State).phase = .scan ∧
    (0x80000000 : Word).extractLsb' 0 4 = 0 ∧ (0x80000000 : Word) ≠ 0x00000000 := by decide

theorem witness_ClearEmptiesInputsAndFlags :
    result.phase = .idle ∧
    ∃ t, exec .clear { result with cmdlost := true } = .next t ∧ t.cmdlost = false := ⟨rfl, _, rfl, rfl⟩

/-- A byte that is no character, a full buffer, and one with exactly one free cell. -/
theorem witness_PushdAppendsToData :
    ((0x32 : Byte) ≠ 0x30 ∧ (0x32 : Byte) ≠ 0x31) ∧ full.dlen = full.cfg.maxBits ∧
    (Memory.wf loaded ∧ loaded.dlen < loaded.cfg.maxBits ∧ loaded.dataBits = some [true, false, true]) := by decide

theorem witness_PushgAppendsToGenerator :
    ((0x2F : Byte) ≠ 0x30 ∧ (0x2F : Byte) ≠ 0x31) ∧ full.glen = full.cfg.maxBits ∧
    (Memory.wf loaded ∧ loaded.glen < loaded.cfg.maxBits ∧ loaded.genBits = some [true, true]) := by decide

/-- Two different interleavings of two PUSHDs and a PUSHG. -/
theorem witness_LoadingOrderIsIrrelevant :
    Memory.wf loaded ∧ loaded.dlen ≤ loaded.cfg.maxBits ∧ loaded.glen ≤ loaded.cfg.maxBits ∧
    (∀ i ∈ [Instr.pushd 0x30, .pushg 0x31, .pushd 0x31], isPushd i = true ∨ isPushg i = true) ∧
    (∀ i ∈ [Instr.pushg 0x31, .pushd 0x30, .pushd 0x31], isPushd i = true ∨ isPushg i = true) ∧
    [Instr.pushd 0x30, .pushg 0x31, .pushd 0x31].filter isPushd =
      [Instr.pushg 0x31, .pushd 0x30, .pushd 0x31].filter isPushd ∧
    [Instr.pushd 0x30, .pushg 0x31, .pushd 0x31].filter isPushg =
      [Instr.pushg 0x31, .pushd 0x30, .pushd 0x31].filter isPushg ∧
    [Instr.pushd 0x30, .pushg 0x31, .pushd 0x31] ≠ [Instr.pushg 0x31, .pushd 0x30, .pushd 0x31] := by decide

/-- One state for each clause; `loaded` is exactly at capacity, and one more character is one too many. -/
theorem witness_ComputeValidatesAndStarts :
    ({ full with invch := true } : State).invch = true ∧
    (fresh.invch = false ∧ (fresh.dlen = 0 ∨ fresh.glen = 0)) ∧
    (({ loaded with glen := 3 } : State).invch = false ∧ 1 ≤ loaded.dlen ∧ 1 ≤ 3 ∧ small.maxBits < 3 + 3 - 1) ∧
    (∀ s ∈ [{ loaded with dovf := true }, { loaded with govf := true }],
      s.invch = false ∧ 1 ≤ s.dlen ∧ 1 ≤ s.glen ∧
        (s.dovf = true ∨ s.govf = true ∨ s.cfg.maxBits < s.dlen + s.glen - 1)) ∧
    (Memory.wf loaded ∧ loaded.dataBits = some [true, false, true] ∧ loaded.invch = false ∧ 1 ≤ loaded.dlen ∧
      1 ≤ loaded.glen ∧ loaded.dovf = false ∧ loaded.govf = false ∧
      loaded.dlen + loaded.glen - 1 = loaded.cfg.maxBits) := by decide

/-- One rejected COMPUTE for each of the six causes. -/
theorem witness_ComputeErrorsInPriorityOrder :
    ∀ s ∈ [{ loaded with invch := true }, { loaded with dlen := 0 }, { loaded with glen := 0 },
        { loaded with dovf := true }, { loaded with govf := true }, { full with invch := false }],
      ({ s with pending := [cmdWrite small 0x00000004] } : State).phase = .idle ∧
      ({ s with pending := [cmdWrite small 0x00000004] } : State).pending =
        cmdWrite s.cfg 0x00000004 :: [] ∧
      (s.invch = true ∨ s.dlen = 0 ∨ s.glen = 0 ∨ s.dovf = true ∨ s.govf = true ∨
        s.cfg.maxBits < s.dlen + s.glen - 1) := by decide

theorem witness_SelSetsReadIndex :
    ({ scanning with pending := [cmdWrite small 0xFFFF0005] } : State).phase = .scan ∧
    encode (.sel 0xFFFF) = 0xFFFF0005 := by decide

theorem witness_SelectThenReadGivesEachBit : result.Inv ∧ result.rvalid = true := ⟨result_inv, rfl⟩

/-- An appended and a dropped character of each buffer. -/
theorem witness_PushFrame :
    (∃ t, exec (.pushd 0x31) loaded = .next t ∧ t.dlen ≠ loaded.dlen) ∧
    (∃ t, exec (.pushd 0x31) full = .next t ∧ t.dlen = full.dlen) ∧
    (∃ t, exec (.pushg 0x31) loaded = .next t ∧ t.glen ≠ loaded.glen) ∧
    (∃ t, exec (.pushg 0x31) full = .next t ∧ t.glen = full.glen) :=
  ⟨⟨_, rfl, by decide⟩, ⟨_, rfl, rfl⟩, ⟨_, rfl, by decide⟩, _, rfl, rfl⟩

/-- An accepted and a rejected COMPUTE. -/
theorem witness_ComputeFrame :
    exec .compute loaded = .next scanning ∧ ∃ t, exec .compute fresh = .next t ∧ t.errcode ≠ .none :=
  ⟨rfl, _, rfl, by decide⟩

theorem witness_ControlFrame :
    (∃ t, exec .nop result = .next t) ∧ (∃ t, exec (.sel 3) result = .next t) ∧ ∃ t, exec .clear result = .next t :=
  ⟨⟨_, rfl⟩, ⟨_, rfl⟩, _, rfl⟩

/-! ### Witnesses: the sequencer -/

theorem witness_ScanStepXorsWindow :
    loaded.phase = .idle ∧ scanning.Inv ∧ scanning.phase = .scan ∧ scanning.scanI < scanning.dlen :=
  ⟨rfl, scanning_inv, rfl, by decide⟩

theorem witness_FinishStepLatchesRemainder :
    finishing.Inv ∧ finishing.phase = .scan ∧ finishing.scanI = finishing.dlen := ⟨finishing_inv, rfl, rfl⟩

/-- Three sequencer slots among a read, a lost command and a write to a reserved slot. -/
theorem witness_ComputeEndsWithCrc :
    loaded.Inv ∧ loaded.phase = .idle ∧ exec .compute loaded = .next scanning ∧ scanning.phase = .scan ∧
    (∀ e ∈ [Event.access (readAt small 4), .sequencer, cmdWrite small 1, .sequencer,
        .access (writeAt small 0x24 0), .sequencer],
      e = .sequencer ∨ ∃ a, e = .access a ∧ accessRefusal loaded.cfg a = none) ∧
    [Event.access (readAt small 4), .sequencer, cmdWrite small 1, .sequencer,
      .access (writeAt small 0x24 0), .sequencer].count .sequencer = loaded.dlen := by
  refine ⟨loaded_inv, rfl, rfl, rfl, ?_, by decide⟩
  simp only [List.mem_cons, List.not_mem_nil, or_false]
  rintro e (rfl | rfl | rfl | rfl | rfl | rfl)
  · exact .inr ⟨_, rfl, by decide⟩
  · exact .inl rfl
  · exact .inr ⟨_, rfl, by decide⟩
  · exact .inl rfl
  · exact .inr ⟨_, rfl, by decide⟩
  · exact .inl rfl

theorem witness_LoadedInputsAreDivided :
    result.Inv ∧ result.phase = .idle ∧ 1 ≤ [true, false, true].length ∧ 1 ≤ [true, true].length ∧
    [true, false, true].length + [true, true].length - 1 ≤ result.cfg.maxBits :=
  ⟨result_inv, rfl, by decide⟩

theorem witness_RepeatedComputeAgrees :
    result.Inv ∧ result.rvalid = true ∧ ∃ t, exec .compute result = .next t ∧ t.phase = .scan :=
  ⟨result_inv, rfl, _, rfl, rfl⟩

/-- The PUSHD of program P4, before and after the sequencer's slots. -/
theorem witness_BusyHazardHasBothOutcomes :
    (({ loaded with pending := [cmdWrite small 0x00000004, cmdWrite small 0x00003102] } : State).Inv ∧
      loaded.phase = .idle ∧ validate loaded = .none) ∧
    ({ loaded with pending := cmdWrite small 0x00000004 ::
      (List.replicate (loaded.dlen + 1) .sequencer ++ [cmdWrite small 0x00003102]) } : State).Inv :=
  ⟨⟨loaded_inv.of_same_block rfl, rfl, by decide⟩, loaded_inv.of_same_block rfl⟩

/-! ### Witnesses: the division as a function -/

theorem witness_XorEngineIsBitwise :
    [true, false].length = [true, true].length ∧ [true, false][1]? = some false ∧ [true, true][1]? = some true := by
  decide

/-- The shortest inputs and longer ones. -/
theorem witness_RemainderLength :
    (1 ≤ [true].length ∧ 1 ≤ [false].length) ∧ (1 ≤ [true, false].length ∧ 1 ≤ [true, true, true].length) := by decide

theorem witness_RemainderIsPolynomialRemainder :
    1 ≤ [true, false].length ∧ [true, true, false].head? = some true := by decide

/-- A generator with first bit 0 among them. -/
theorem witness_FrameDividesToZero :
    (1 ≤ [true].length ∧ 1 ≤ [false, true, true].length) ∧ (1 ≤ [true].length ∧ 1 ≤ [true].length) := by decide

theorem witness_RemainderIsLinear :
    [true, false].length = [true, true].length ∧ 1 ≤ [true, false].length ∧ 1 ≤ [true, false, true].length := by
  decide

theorem witness_GeneratorsAreNotNormalised :
    (1 ≤ [true].length ∧ 1 ≤ 1) ∧ (1 ≤ [true, true].length ∧ 1 ≤ [true, false].length) := by decide

theorem witness_OneBitGeneratorGivesEmptyRemainder :
    1 ≤ [true].length ∧
    ({ fresh with
      data := [some true, none, none, none], dlen := 1, gen := [some true, none, none, none], glen := 1
      work := [some false, none, none, none], scanI := 1, phase := .scan } : State).Inv :=
  ⟨by decide, by decide, by decide, ⟨by decide, by decide, nofun, by decide⟩, by decide, ⟨_, rfl⟩, ⟨_, rfl⟩, nofun,
    fun _ => ⟨_, _, rfl, rfl, rfl⟩⟩

/-! ### Witnesses: who changes what -/

/-- Each sticky flag as it is set, and all four as CLEAR clears them. -/
theorem witness_StickyFlagsSetAndCleared :
    (∃ t, step { loaded with pending := [cmdWrite small 0x00003202] } = .next t ∧ t.invch = true) ∧
    (∃ t, step { full with pending := [cmdWrite small 0x00003102] } = .next t ∧ t.dovf = true) ∧
    (∃ t, step { full with pending := [cmdWrite small 0x00003103] } = .next t ∧ t.govf = true) ∧
    (∃ t, step { scanning with pending := [cmdWrite small 0x00000000] } = .next t ∧ t.cmdlost = true) ∧
    (∃ t, step { full with
        invch := true, dovf := true, govf := true, cmdlost := true, pending := [cmdWrite small 0x00000001] } =
      .next t ∧ t.invch = false ∧ t.dovf = false ∧ t.govf = false ∧ t.cmdlost = false) :=
  ⟨⟨_, rfl, rfl⟩, ⟨_, rfl, rfl⟩, ⟨_, rfl, rfl⟩, ⟨_, rfl, rfl⟩, _, rfl, rfl, rfl, rfl, rfl⟩

theorem witness_ErrcodeChangesOnlyBy :
    ∃ t, step { fresh with pending := [cmdWrite small 0x00000004] } = .next t ∧ t.errcode ≠ fresh.errcode :=
  ⟨_, rfl, by decide⟩

/-- A step that writes WORK and SCAN_I, one that writes DATA and DLEN, and two that write RLEN. -/
theorem witness_OnlyListedStepsWrite :
    (∃ t, step scanning = .next t ∧ t.work ≠ scanning.work ∧ t.scanI ≠ scanning.scanI) ∧
    (∃ t, step { loaded with pending := [cmdWrite small 0x00003102] } = .next t ∧
      t.data ≠ loaded.data ∧ t.dlen ≠ loaded.dlen) ∧
    (step finishing = .next result ∧ result.rlen ≠ finishing.rlen) ∧
    (∃ t, step { result with pending := [cmdWrite small 0x00003103] } = .next t ∧ t.rlen ≠ result.rlen) :=
  ⟨⟨_, rfl, by decide, by decide⟩, ⟨_, rfl, by decide, by decide⟩, ⟨rfl, by decide⟩, _, rfl, by decide⟩

/-- The finish step, and a PUSHD that withdraws the result. -/
theorem witness_ResultAppearsOnlyAtFinish :
    (step finishing = .next result ∧ finishing.rvalid = false ∧ result.rvalid = true ∧ result.rzero = true) ∧
    (({ result with pending := [cmdWrite small 0x00003102] } : State).Inv ∧
      ∃ t, step { result with pending := [cmdWrite small 0x00003102] } = .next t ∧
        t.rvalid = false ∧ t.rzero = false) :=
  ⟨⟨rfl, rfl, rfl, rfl⟩, result_inv.of_same_block rfl, _, rfl, rfl, rfl⟩

theorem witness_CommandLineIsOneCmdWrite :
    loaded.phase = .idle ∧
    ({ loaded with pending := [.access (writeAt small 0x00 (encode (.sel 3)))] } : State).pending =
      .access (writeAt small 0x00 (encode (.sel 3))) :: [] := by decide

end Sys2Proof.Tests
end

section
/-!
PROOFS. Every command and every sequencer step keeps the invariant, one lemma for each (R32).
-/

namespace Sys2Proof.Machine

/-- Of an idle block without a result, the invariant asks only for the buffers and the lengths. -/
theorem inv_of_idle_without_result {t : State} (legal : t.cfg.Legal) (wf : Memory.wf t)
    (lengths : t.dlen ≤ t.cfg.maxBits ∧ t.glen ≤ t.cfg.maxBits) (idle : t.phase = .idle)
    (noResult : t.rvalid = false ∧ t.rlen = 0 ∧ t.rzero = false) (scanPos : t.scanI ≤ t.cfg.maxBits)
    (dataValued : ∃ d, t.dataBits = some d) (genValued : ∃ g, t.genBits = some g) : t.Inv where
  legal := legal
  wf := wf
  spec := ⟨lengths, fun _ => noResult.2, by simp [noResult.1], by simp [idle]⟩
  scanPos := scanPos
  dataValued := dataValued
  genValued := genValued
  zeroFlag := by simp [noResult.1]
  midScan := by simp [idle]

/-- A block that meets the invariant, idle and with its result withdrawn, keeps it while the flags and `ERRCODE`
change. -/
theorem State.Inv.withdrawn {s t : State} (h : s.Inv) (hp : s.phase = .idle)
    (e : t = { clearResult s with invch := t.invch, dovf := t.dovf, govf := t.govf, errcode := t.errcode }) :
    t.Inv := by
  rw [e]
  exact inv_of_idle_without_result h.legal h.wf h.spec.lengths hp ⟨rfl, rfl, rfl⟩ h.scanPos h.dataValued h.genValued

theorem execPushd_keeps_inv {ch : Byte} {s t : State} (h : s.Inv) (hp : s.phase = .idle)
    (he : execPushd ch s = .next t) : t.Inv := by
  obtain ⟨-, rfl⟩ | ⟨-, -, -, rfl⟩ | ⟨b, cells, -, hroom, hput, rfl⟩ := execPushd_cases he
  · exact h.withdrawn hp rfl
  · exact h.withdrawn hp rfl
  · obtain ⟨d, hd⟩ := h.dataValued
    obtain ⟨hdl, hgl⟩ := h.spec.lengths
    exact inv_of_idle_without_result h.legal (exec_keeps_memory_wf (i := .pushd ch) h.wf he)
      ⟨by simp; omega, hgl⟩ hp ⟨rfl, rfl, rfl⟩ h.scanPos ⟨_, slice_put_end hd hput⟩ h.genValued

theorem execPushg_keeps_inv {ch : Byte} {s t : State} (h : s.Inv) (hp : s.phase = .idle)
    (he : execPushg ch s = .next t) : t.Inv := by
  obtain ⟨-, rfl⟩ | ⟨-, -, -, rfl⟩ | ⟨b, cells, -, hroom, hput, rfl⟩ := execPushg_cases he
  · exact h.withdrawn hp rfl
  · exact h.withdrawn hp rfl
  · obtain ⟨g, hg⟩ := h.genValued
    obtain ⟨hdl, hgl⟩ := h.spec.lengths
    exact inv_of_idle_without_result h.legal (exec_keeps_memory_wf (i := .pushg ch) h.wf he)
      ⟨hdl, by simp; omega⟩ hp ⟨rfl, rfl, rfl⟩ h.scanPos h.dataValued ⟨_, slice_put_end hg hput⟩

/-- An accepted COMPUTE leaves the augmented message in WORK, which is R120's buffer before its first iteration. -/
theorem execCompute_keeps_inv {s t : State} (h : s.Inv) (hp : s.phase = .idle) (he : execCompute s = .next t) :
    t.Inv := by
  obtain ⟨-, rfl⟩ | ⟨d, work, hv, hd, hput, rfl⟩ := execCompute_cases he
  · exact h.withdrawn hp rfl
  · obtain ⟨-, hd1, hg1, -, -, hfit⟩ := validate_eq_none.mp hv
    obtain ⟨g, hg⟩ := h.genValued
    have hput' : Cells.putSlice s.work 0 (augment d g) = some work := by rwa [augment, length_of_slice hg]
    have hlen : (augment d g).length = s.dlen + s.glen - 1 := by
      rw [length_augment, length_of_slice hd, length_of_slice hg]; omega
    have hwork : Cells.slice work 0 (s.dlen + s.glen - 1) = some (augment d g) := hlen ▸ slice_putSlice hput'
    exact {
      legal := h.legal
      wf := exec_keeps_memory_wf (i := .compute) h.wf he
      spec := ⟨h.spec.lengths, fun _ => ⟨rfl, rfl⟩, nofun,
        fun _ => ⟨rfl, rfl, hd1, hg1, hfit, Nat.zero_le _⟩⟩
      scanPos := Nat.zero_le _
      dataValued := h.dataValued
      genValued := h.genValued
      zeroFlag := nofun
      midScan := fun _ => ⟨d, g, hd, hg, hwork⟩ }

/-- Every command that an idle block executes keeps the invariant. -/
theorem exec_keeps_inv {i : Instr} {s t : State} (h : s.Inv) (hp : s.phase = .idle) (he : exec i s = .next t) :
    t.Inv := by
  cases i with
  | nop => cases he; exact h
  | clear =>
    cases he
    exact inv_of_idle_without_result h.legal h.wf ⟨Nat.zero_le _, Nat.zero_le _⟩ hp ⟨rfl, rfl, rfl⟩ h.scanPos
      ⟨[], rfl⟩ ⟨[], rfl⟩
  | pushd ch => exact execPushd_keeps_inv h hp he
  | pushg ch => exact execPushg_keeps_inv h hp he
  | compute => exact execCompute_keeps_inv h hp he
  | sel idx => cases he; exact h.of_same_block rfl

theorem scanStep_keeps_inv {s t : State} (h : s.Inv) (hp : s.phase = .scan) (hi : s.scanI < s.dlen)
    (ht : scanStep s = .next t) : t.Inv := by
  obtain ⟨d, g, work, hd, hg, hput, -, -, hs, hw⟩ := scanStep_spec h hp hi
  obtain ⟨hrv, herr, hd1, hg1, hfit, -⟩ := h.spec.scanning hp
  obtain ⟨hwd, hwg, hww, hwr⟩ := h.wf
  cases hs.symm.trans ht
  exact {
    legal := h.legal
    wf := ⟨hwd, hwg, (length_putSlice hput).trans hww, hwr⟩
    spec := ⟨h.spec.lengths, h.spec.noResult, by simp [hrv], fun _ => ⟨hrv, herr, hd1, hg1, hfit, hi⟩⟩
    scanPos := hi.trans_le h.spec.lengths.1
    dataValued := h.dataValued
    genValued := h.genValued
    zeroFlag := by simp [hrv]
    midScan := fun _ => ⟨d, g, hd, hg, hw⟩ }

theorem finishStep_keeps_inv {s t : State} (h : s.Inv) (hp : s.phase = .scan) (hi : s.scanI = s.dlen)
    (ht : finishStep s = .next t) : t.Inv := by
  obtain ⟨d, g, rem, hd, hg, -, hput, hlen, hs⟩ := finishStep_spec h hp hi
  obtain ⟨-, -, hd1, hg1, hfit, -⟩ := h.spec.scanning hp
  obtain ⟨hwd, hwg, hww, hwr⟩ := h.wf
  have hrem : Cells.slice rem 0 (s.glen - 1) = some (crc d g) := hlen ▸ slice_putSlice hput
  cases hs.symm.trans ht
  exact {
    legal := h.legal
    wf := ⟨hwd, hwg, hww, (length_putSlice hput).trans hwr⟩
    spec := ⟨h.spec.lengths, nofun, fun _ => ⟨rfl, hd1, hg1, hfit, rfl, d, g, hd, hg, hrem⟩, nofun⟩
    scanPos := h.scanPos
    dataValued := h.dataValued
    genValued := h.genValued
    zeroFlag := fun _ => ⟨crc d g, hrem, rfl⟩
    midScan := nofun }

/-- Every sequencer slot keeps the invariant. -/
theorem sequencerStep_keeps_inv {s t : State} (h : s.Inv) (ht : sequencerStep s = .next t) : t.Inv := by
  obtain ⟨-, rfl⟩ | ⟨hp, hi, ht⟩ | ⟨hp, hi, ht⟩ | ⟨-, -, rfl⟩ := sequencerStep_cases ht
  · exact h
  · exact scanStep_keeps_inv h hp hi ht
  · exact finishStep_keeps_inv h hp hi ht
  · exact h

end Sys2Proof.Machine
end

section
/-!
PROOFS. Loading inputs and letting the sequencer finish: the states between CLEAR and COMPUTE, and the run of a
computation that nothing disturbs (R91, R126 to R129).
-/

namespace Sys2Proof.Machine

/-! ### A computation that nothing disturbs -/

/-- With nothing pending, a computation runs through its scan and its finish step to a result, on unchanged inputs
(R129). What the result is, the invariant says. -/
theorem run_scan_to_result {s : State} (h : s.Inv) (hp : s.phase = .scan) (hpend : s.pending = []) :
    ∃ u, run (s.dlen - s.scanI + 1) s = .next u ∧ u.Inv ∧ u.rvalid = true ∧ u.errcode = .none ∧
      u.dataBits = s.dataBits ∧ u.genBits = s.genBits := by
  obtain ⟨-, herr, -, -, -, hle⟩ := h.spec.scanning hp
  induction hn : s.dlen - s.scanI generalizing s with
  | zero =>
    have hi : s.scanI = s.dlen := by omega
    obtain ⟨d, g, rem, -, -, -, -, -, hs⟩ := finishStep_spec h hp hi
    have hstep := (step_nil hpend).trans ((sequencerStep_of_eq hp hi).trans hs)
    exact ⟨_, run_succ_of_next hstep, finishStep_keeps_inv h hp hi hs, rfl, herr, rfl, rfl⟩
  | succ n ih =>
    have hi : s.scanI < s.dlen := by omega
    obtain ⟨d, g, work, -, -, -, -, -, hs, -⟩ := scanStep_spec h hp hi
    have hstep := (step_nil hpend).trans ((sequencerStep_of_lt hp hi).trans hs)
    rw [run_succ_of_next hstep]
    exact ih (scanStep_keeps_inv h hp hi hs) hp hpend herr hi (by simp only; omega)

/-! ### Lists of commands -/

theorem execAll_cons_of_next {i : Instr} {is : List Instr} {s t : State} (h : exec i s = .next t) :
    execAll (i :: is) s = execAll is t := by
  simp only [execAll, h]

/-- Lists of commands compose. -/
theorem execAll_append_of_next {l l' : List Instr} {s t : State} (h : execAll l s = .next t) :
    execAll (l ++ l') s = execAll l' t := by
  induction l generalizing s with
  | nil => cases h; rfl
  | cons i is ih =>
    rw [execAll] at h
    split at h
    · next u hu => rw [List.cons_append, execAll_cons_of_next hu]; exact ih h
    · cases h
    · cases h

/-- Where each command `f b` appends `b` to what the states stand for, as long as that is shorter than `n`, the
commands of a bitstring append the bitstring. -/
theorem execAll_map_appends {f : Bit → Instr} {P : Bitstring → State → Prop} {n : Nat}
    (happend : ∀ as b s, P as s → as.length < n → ∃ t, exec (f b) s = .next t ∧ P (as ++ [b]) t)
    {as bs : Bitstring} {s : State} (h : P as s) (hfit : as.length + bs.length ≤ n) :
    ∃ t, execAll (bs.map f) s = .next t ∧ P (as ++ bs) t := by
  induction bs generalizing as s with
  | nil => exact ⟨s, rfl, by simpa using h⟩
  | cons b bs ih =>
    simp only [List.length_cons] at hfit
    obtain ⟨u, hu, hPu⟩ := happend as b s h (by omega)
    obtain ⟨t, ht, hPt⟩ := ih hPu (by simp; omega)
    exact ⟨t, (execAll_cons_of_next hu).trans ht, by simpa using hPt⟩

/-! ### Loading -/

/-- An idle instance whose inputs are `d` and `g` and which has seen no input error. -/
structure State.Loaded (s : State) (c : Config) (d g : Bitstring) : Prop where
  inv : s.Inv
  idle : s.phase = .idle
  cfg : s.cfg = c
  data : s.dataBits = some d
  gen : s.genBits = some g
  invch : s.invch = false
  dovf : s.dovf = false
  govf : s.govf = false

/-- Reading a character in inverts reading it out (R103, R154). -/
@[simp] theorem chr2bit_bit2chr (b : Bit) : chr2bit (bit2chr b) = some b := by
  cases b <;> rfl

/-- CLEAR leaves an idle block with empty inputs (R171). -/
theorem exec_clear_loads {s : State} (h : s.Inv) (hp : s.phase = .idle) :
    ∃ t, exec .clear s = .next t ∧ t.Loaded s.cfg [] [] :=
  ⟨_, rfl, exec_keeps_inv h hp (i := .clear) rfl, hp, rfl, rfl, rfl, rfl, rfl, rfl⟩

/-- PUSHD of a bit's character appends the bit to the data (R101). -/
theorem exec_pushd_loads {c : Config} {d g : Bitstring} {b : Bit} {s : State} (h : s.Loaded c d g)
    (hroom : d.length < c.maxBits) :
    ∃ t, exec (.pushd (bit2chr b)) s = .next t ∧ t.Loaded c (d ++ [b]) g := by
  obtain ⟨hinv, hidle, rfl, hd, hg, hinvch, hdovf, hgovf⟩ := h
  rw [length_of_slice hd] at hroom
  have hput : Cells.put s.data s.dlen b = some (s.data.set s.dlen (some b)) :=
    put_eq_some.mpr ⟨hinv.wf.1.symm ▸ hroom, rfl⟩
  have he := execPushd_of_room (chr2bit_bit2chr b) hroom.ne hput
  exact ⟨_, he, execPushd_keeps_inv hinv hidle he, hidle, rfl, slice_put_end hd hput, hg, hinvch, hdovf, hgovf⟩

/-- PUSHG of a bit's character appends the bit to the generator (R102). -/
theorem exec_pushg_loads {c : Config} {d g : Bitstring} {b : Bit} {s : State} (h : s.Loaded c d g)
    (hroom : g.length < c.maxBits) :
    ∃ t, exec (.pushg (bit2chr b)) s = .next t ∧ t.Loaded c d (g ++ [b]) := by
  obtain ⟨hinv, hidle, rfl, hd, hg, hinvch, hdovf, hgovf⟩ := h
  rw [length_of_slice hg] at hroom
  have hput : Cells.put s.gen s.glen b = some (s.gen.set s.glen (some b)) :=
    put_eq_some.mpr ⟨hinv.wf.2.1.symm ▸ hroom, rfl⟩
  have he := execPushg_of_room (chr2bit_bit2chr b) hroom.ne hput
  exact ⟨_, he, execPushg_keeps_inv hinv hidle he, hidle, rfl, hd, slice_put_end hg hput, hinvch, hdovf, hgovf⟩

/-- CLEAR and the characters of two bitstrings that the buffers can hold load the two bitstrings (R91). -/
theorem execAll_clear_push_loads {s : State} {d g : Bitstring} (h : s.Inv) (hp : s.phase = .idle)
    (hd : d.length ≤ s.cfg.maxBits) (hg : g.length ≤ s.cfg.maxBits) :
    ∃ t, execAll (.clear :: ((d.map fun b => .pushd (bit2chr b)) ++ (g.map fun b => .pushg (bit2chr b)))) s =
      .next t ∧ t.Loaded s.cfg d g := by
  obtain ⟨s₀, hs₀, h₀⟩ := exec_clear_loads h hp
  obtain ⟨s₁, hs₁, h₁⟩ := execAll_map_appends (P := fun as u => u.Loaded s.cfg as []) (n := s.cfg.maxBits)
    (bs := d) (fun _ _ _ hu hn => exec_pushd_loads hu hn) h₀ (by simpa using hd)
  obtain ⟨s₂, hs₂, h₂⟩ := execAll_map_appends (P := fun as u => u.Loaded s.cfg d as) (n := s.cfg.maxBits)
    (bs := g) (fun _ _ _ hu hn => exec_pushg_loads hu hn) h₁ (by simpa using hg)
  exact ⟨s₂, (execAll_cons_of_next hs₀).trans ((execAll_append_of_next hs₁).trans hs₂), h₂⟩

/-! ### Starting the division -/

theorem execCompute_of_valid {s : State} {d : Bitstring} {work : Cells} (hv : validate s = .none)
    (hd : s.dataBits = some d)
    (hw : Cells.putSlice s.work 0 (d ++ List.replicate (s.glen - 1) false) = some work) :
    execCompute s = .next { clearResult s with errcode := .none, work := work, scanI := 0, phase := .scan } := by
  have hd' : Cells.slice s.data 0 s.dlen = some d := hd
  simp only [execCompute, hv, startScan, clearResult_data, clearResult_dlen, clearResult_work, clearResult_glen, hd',
    hw, withValue_some]

/-- COMPUTE on loaded inputs that fit starts the scan at position 0 (R126). -/
theorem exec_compute_starts {c : Config} {d g : Bitstring} {s : State} (h : s.Loaded c d g)
    (hd1 : 1 ≤ d.length) (hg1 : 1 ≤ g.length) (hfit : d.length + g.length - 1 ≤ c.maxBits) :
    ∃ t, exec .compute s = .next t ∧ t.Inv ∧ t.phase = .scan ∧ t.scanI = 0 ∧ t.dataBits = some d ∧
      t.genBits = some g := by
  obtain ⟨hinv, hidle, rfl, hd, hg, hinvch, hdovf, hgovf⟩ := h
  have hdl := length_of_slice hd
  have hgl := length_of_slice hg
  have hv : validate s = .none :=
    validate_eq_none.mpr ⟨hinvch, by omega, by omega, hdovf, hgovf, by omega⟩
  obtain ⟨work, hw⟩ := putSlice_of_fits (cells := s.work) (i := 0)
    (bs := d ++ List.replicate (s.glen - 1) false) (by rw [hinv.wf.2.2.1]; simp; omega)
  have he := execCompute_of_valid hv hd hw
  exact ⟨_, he, execCompute_keeps_inv hinv hidle he, rfl, rfl, hd, hg⟩

/-! ### The division of loaded inputs -/

/-- What a result says about the inputs it was computed from: every field the host sees (R32, R151). -/
theorem State.Inv.result_of_inputs {u : State} {d g : Bitstring} (h : u.Inv) (hr : u.rvalid = true)
    (hd : u.dataBits = some d) (hg : u.genBits = some g) :
    u.phase = .idle ∧ u.rlen = g.length - 1 ∧ u.remBits = some (crc d g) ∧ u.frame = some (d ++ crc d g) := by
  obtain ⟨hidle, -, -, -, hrlen, d', g', hd', hg', hrem⟩ := h.spec.result hr
  cases hd'.symm.trans hd
  cases hg'.symm.trans hg
  exact ⟨hidle, by rw [hrlen, length_of_slice hg], hrem, by simp [State.frame, hr, hd, hrem]⟩

/-- Settles O45: CLEAR and the pushes load the inputs, COMPUTE starts the scan in a state that meets the invariant,
and the undisturbed run keeps the invariant to its end, where it says what the result is. -/
theorem loadedInputsAreDivided : Obligations.LoadedInputsAreDivided := by
  intro s d g h hp hd1 hg1 hfit
  obtain ⟨s₂, hs₂, h₂⟩ := execAll_clear_push_loads (d := d) (g := g) h hp (by omega) (by omega)
  obtain ⟨t, ht, hinv, hscan, hi, hd, hg⟩ := exec_compute_starts h₂ hd1 hg1 hfit
  obtain ⟨u, hrun, huinv, hrv, herr, hud, hug⟩ :=
    run_scan_to_result (s := { t with pending := [] }) (hinv.of_same_block rfl) hscan rfl
  have hsteps : t.dlen - t.scanI + 1 = d.length + 1 := by rw [hi, length_of_slice hd, Nat.sub_zero]
  replace hud : u.dataBits = some d := hud.trans hd
  replace hug : u.genBits = some g := hug.trans hg
  obtain ⟨hidle, hrlen, hrem, hframe⟩ := huinv.result_of_inputs hrv hud hug
  exact ⟨t, u, (execAll_append_of_next hs₂).trans (execAll_cons_of_next ht), hscan, hsteps ▸ hrun, hidle, hrv, herr,
    (length_of_slice hud).symm, (length_of_slice hug).symm, hrlen, hud, hug, hrem, hframe⟩

end Sys2Proof.Machine
end

section
/-!
PROOFS. What COMPUTE, the port and the character ports answer in each case, as equations (R62 to R65, R88, R126, R152).
-/

namespace Sys2Proof.Machine

theorem execCompute_of_rejected {s : State} (h : validate s ≠ .none) :
    execCompute s = .next (raiseError (validate s) (clearResult s)) := by
  unfold execCompute
  split
  · next hv => exact absurd hv h
  · rfl

theorem dispatchCommand_of_scan {v : Word} {s : State} (hp : s.phase = .scan) :
    dispatchCommand v s = .next { s with cmdlost := true } := if_pos (busy_eq_true.mpr hp)

theorem dispatchCommand_of_ok {v : Word} {i : Instr} {s : State} (hp : s.phase = .idle) (hd : decode v = .ok i) :
    dispatchCommand v s = exec i s := by
  simp [dispatchCommand, busy_eq_false.mpr hp, hd]

theorem dispatchCommand_of_error {v : Word} {e : DecodeReject} {s : State} (hp : s.phase = .idle)
    (hd : decode v = .error e) : dispatchCommand v s = .next (raiseError .illegalCommand s) := by
  simp [dispatchCommand, busy_eq_false.mpr hp, hd, execIllegal]

theorem hostWrite_of_ne {slot : Option Reg} (h : slot ≠ some .cmd) (v : Word) (s : State) :
    hostWrite slot v s = .next s := by
  unfold hostWrite
  split
  · exact absurd rfl h
  · rfl

theorem hostRead_of_value {slot : Option Reg} {s : State} {v : Word} (h : regRead s slot = some v) :
    hostRead slot s = .next (answer v s) := by
  rw [hostRead, h, withValue_some]

theorem hostAccess_read {s : State} {addr width : Nat} {burst : Bool}
    (h : accessRefusal s.cfg (.read addr width burst) = none) :
    hostAccess (.read addr width burst) s = hostRead (accessSlot s.cfg (.read addr width burst)) s := by
  unfold hostAccess; rw [h]

theorem hostAccess_write {s : State} {addr : Nat} {lanes : List Byte} {burst : Bool}
    (h : accessRefusal s.cfg (.write addr lanes burst) = none) :
    hostAccess (.write addr lanes burst) s =
      hostWrite (accessSlot s.cfg (.write addr lanes burst)) (wordOfLanes lanes) s := by
  unfold hostAccess; rw [h]

/-- A character port that selects a cell of a valued slice gives the character of the slice's bit. -/
theorem charOf_of_slice {cells : Cells} {n i : Nat} {bs : Bitstring} (h : Cells.slice cells 0 n = some bs)
    (hi : i < n) : charOf cells i = bs[i]?.map charWord := by
  have hget := get_of_slice h hi
  rw [Nat.zero_add] at hget
  rw [charOf, hget]

theorem charOf_total {cells : Cells} {n i : Nat} {bs : Bitstring} (h : Cells.slice cells 0 n = some bs)
    (hi : i < n) : ∃ v, charOf cells i = some v :=
  ⟨_, by rw [charOf_of_slice h hi, List.getElem?_eq_getElem (by rw [length_of_slice h]; exact hi)]; rfl⟩

end Sys2Proof.Machine
end

section
/-!
PROOFS. What every command and the sequencer write, and so what they leave unchanged (R21 to R31, R100).
-/

namespace Sys2Proof.Machine

/-! ### Frames of the commands -/

theorem execPushd_frame {ch : Byte} {s t : State} (h : execPushd ch s = .next t) :
    t = { clearResult s with data := t.data, dlen := t.dlen, invch := t.invch, dovf := t.dovf } := by
  obtain ⟨-, rfl⟩ | ⟨-, -, -, rfl⟩ | ⟨-, -, -, -, -, rfl⟩ := execPushd_cases h <;> rfl

theorem execPushg_frame {ch : Byte} {s t : State} (h : execPushg ch s = .next t) :
    t = { clearResult s with gen := t.gen, glen := t.glen, invch := t.invch, govf := t.govf } := by
  obtain ⟨-, rfl⟩ | ⟨-, -, -, rfl⟩ | ⟨-, -, -, -, -, rfl⟩ := execPushg_cases h <;> rfl

theorem execCompute_frame {s t : State} (h : execCompute s = .next t) :
    t = { clearResult s with errcode := t.errcode, work := t.work, scanI := t.scanI, phase := t.phase } := by
  obtain ⟨-, rfl⟩ | ⟨-, -, -, -, -, rfl⟩ := execCompute_cases h <;> rfl

/-- Which commands write each element of the inputs, the index and the sequencer; none writes `REM` or the
parameters. -/
theorem exec_writes {i : Instr} {s t : State} (h : exec i s = .next t) :
    t.cfg = s.cfg ∧ t.rem = s.rem ∧
    (t.data ≠ s.data → ∃ ch, i = .pushd ch) ∧
    (t.dlen ≠ s.dlen → (∃ ch, i = .pushd ch) ∨ i = .clear) ∧
    (t.gen ≠ s.gen → ∃ ch, i = .pushg ch) ∧
    (t.glen ≠ s.glen → (∃ ch, i = .pushg ch) ∨ i = .clear) ∧
    (t.work ≠ s.work → i = .compute) ∧
    (t.ridx ≠ s.ridx → (∃ idx, i = .sel idx) ∨ i = .clear) ∧
    (t.phase ≠ s.phase ∨ t.scanI ≠ s.scanI → i = .compute) := by
  cases i with
  | nop => cases h; simp
  | clear => cases h; simp
  | sel idx => cases h; simp
  | pushd ch => rw [execPushd_frame h]; simp
  | pushg ch => rw [execPushg_frame h]; simp
  | compute => rw [execCompute_frame h]; simp

theorem exec_errcode {i : Instr} {s t : State} (h : exec i s = .next t) (hne : t.errcode ≠ s.errcode) :
    i = .compute ∨ i = .clear := by
  cases i with
  | nop => cases h; exact absurd rfl hne
  | clear => exact .inr rfl
  | sel idx => cases h; exact absurd rfl hne
  | pushd ch => exact absurd (congrArg State.errcode (execPushd_frame h)) hne
  | pushg ch => exact absurd (congrArg State.errcode (execPushg_frame h)) hne
  | compute => exact .inl rfl

/-- The commands that withdraw the result (R100). -/
def withdraws (i : Instr) : Prop := (∃ ch, i = .pushd ch ∨ i = .pushg ch) ∨ i = .clear ∨ i = .compute

/-- A command withdraws the result or leaves it (R28, R100). -/
theorem exec_result {i : Instr} {s t : State} (h : exec i s = .next t) :
    (withdraws i ∧ t.rvalid = false ∧ t.rzero = false) ∨
    (t.rvalid = s.rvalid ∧ t.rzero = s.rzero ∧ t.rlen = s.rlen) := by
  cases i with
  | nop => cases h; exact .inr ⟨rfl, rfl, rfl⟩
  | sel idx => cases h; exact .inr ⟨rfl, rfl, rfl⟩
  | clear => cases h; exact .inl ⟨.inr (.inl rfl), rfl, rfl⟩
  | pushd ch => rw [execPushd_frame h]; exact .inl ⟨.inl ⟨ch, .inl rfl⟩, rfl, rfl⟩
  | pushg ch => rw [execPushg_frame h]; exact .inl ⟨.inl ⟨ch, .inr rfl⟩, rfl, rfl⟩
  | compute => rw [execCompute_frame h]; exact .inl ⟨.inr (.inr rfl), rfl, rfl⟩

/-! ### Frames of the sequencer -/

/-- The sequencer writes `WORK` below the end of the data, and `REM` and the result at it (R127, R128). -/
theorem sequencerStep_writes {s t : State} (h : sequencerStep s = .next t) :
    t = { s with
      work := t.work, rem := t.rem, rlen := t.rlen, rzero := t.rzero, rvalid := t.rvalid, phase := t.phase
      scanI := t.scanI } ∧
    (s.scanI < s.dlen ∨ t.work = s.work) ∧
    (s.scanI = s.dlen ∧ t.rvalid = true ∨
      t.rem = s.rem ∧ t.rlen = s.rlen ∧ t.rvalid = s.rvalid ∧ t.rzero = s.rzero) := by
  obtain ⟨-, rfl⟩ | ⟨-, hi, h⟩ | ⟨-, hi, h⟩ | ⟨-, -, rfl⟩ := sequencerStep_cases h
  · exact ⟨rfl, .inr rfl, .inr ⟨rfl, rfl, rfl, rfl⟩⟩
  · obtain ⟨_, _, _, _, -, -, -, -, rfl⟩ := scanStep_cases h
    exact ⟨rfl, .inl hi, .inr ⟨rfl, rfl, rfl, rfl⟩⟩
  · obtain ⟨_, _, -, -, rfl⟩ := finishStep_cases h
    exact ⟨rfl, .inr rfl, .inl ⟨hi, rfl⟩⟩
  · exact ⟨rfl, .inr rfl, .inr ⟨rfl, rfl, rfl, rfl⟩⟩

end Sys2Proof.Machine
end

section
/-!
PROOFS. The reset state meets the invariant, every step keeps it, and under it no step faults (R32, R43, and
spec/93_implementation_defined.md part 2).
-/

namespace Sys2Proof.Machine

/-! ### The invariant from reset on -/

theorem resetFor_inv {c : Config} (h : c.Legal) : (State.resetFor c).Inv :=
  inv_of_idle_without_result h ⟨by simp, by simp, by simp, by simp⟩ (by simp) rfl ⟨rfl, rfl, rfl⟩
    (Nat.zero_le _) ⟨[], rfl⟩ ⟨[], rfl⟩

/-- Settles O7: nothing is stored and nothing runs after reset, so only the buffers' sizes are left to check. -/
theorem resetMeetsInvariant : Obligations.ResetMeetsInvariant :=
  ⟨fun _ h => resetFor_inv h, resetFor_inv (by decide)⟩

/-- An idle block may record any error: `ERRCODE` is bound only while a computation runs (R32). -/
theorem raiseError_keeps_inv {s : State} (h : s.Inv) (hp : s.phase = .idle) (e : ErrCode) : (raiseError e s).Inv where
  legal := h.legal
  wf := h.wf
  spec := ⟨h.spec.lengths, h.spec.noResult, h.spec.result, by simp [hp]⟩
  scanPos := h.scanPos
  dataValued := h.dataValued
  genValued := h.genValued
  zeroFlag := h.zeroFlag
  midScan := h.midScan

/-- Whatever a step is about, the invariant holds after it. -/
theorem step_keeps_inv {s t : State} (h : s.Inv) (hs : step s = .next t) : t.Inv := by
  have hpend : ∀ rest, ({ s with pending := rest } : State).Inv := fun _ => h.of_same_block rfl
  obtain ⟨rest, -, hs⟩ | ⟨rest, rfl⟩ | ⟨rest, v, rfl⟩ | ⟨rest, -, rfl⟩ | ⟨rest, i, ⟨hidle, -⟩, hs⟩ |
    ⟨rest, e, ⟨hidle, -⟩, rfl⟩ | ⟨rest, ans, dr, -, rfl⟩ := step_kinds hs
  · exact sequencerStep_keeps_inv (hpend rest) hs
  · exact hpend rest
  · exact h.of_same_block rfl
  · exact h.of_same_block rfl
  · exact exec_keeps_inv (hpend rest) hidle hs
  · exact raiseError_keeps_inv (hpend rest) hidle _
  · exact (resetFor_inv h.legal).of_same_block rfl

/-- Settles O10, by the invariant's preservation in each kind of step; R32's four points are a part of it. -/
theorem stepKeepsInvariant : Obligations.StepKeepsInvariant :=
  fun _ _ h hs => ⟨step_keeps_inv h hs, (step_keeps_inv h hs).spec⟩

/-! ### Under the invariant every operation has an outcome -/

/-- A valid character finds a free cell, and accepted inputs fit into WORK, since the buffers have `MAX_BITS` cells. -/
theorem exec_total {s : State} (h : s.Inv) (i : Instr) : ∃ t, exec i s = .next t := by
  obtain ⟨hwd, hwg, hww, -⟩ := h.wf
  obtain ⟨hdl, hgl⟩ := h.spec.lengths
  cases i with
  | nop => exact ⟨_, rfl⟩
  | clear => exact ⟨_, rfl⟩
  | sel idx => exact ⟨_, rfl⟩
  | pushd ch =>
    cases hc : chr2bit ch with
    | none => exact ⟨_, execPushd_of_invalid hc⟩
    | some b =>
      by_cases hfull : s.dlen = s.cfg.maxBits
      · exact ⟨_, execPushd_of_full hc hfull⟩
      · exact ⟨_, execPushd_of_room hc hfull (put_eq_some.mpr ⟨by omega, rfl⟩)⟩
  | pushg ch =>
    cases hc : chr2bit ch with
    | none => exact ⟨_, execPushg_of_invalid hc⟩
    | some b =>
      by_cases hfull : s.glen = s.cfg.maxBits
      · exact ⟨_, execPushg_of_full hc hfull⟩
      · exact ⟨_, execPushg_of_room hc hfull (put_eq_some.mpr ⟨by omega, rfl⟩)⟩
  | compute =>
    by_cases hv : validate s = .none
    · obtain ⟨-, hd1, hg1, -, -, hfit⟩ := validate_eq_none.mp hv
      obtain ⟨d, hd⟩ := h.dataValued
      have hlen := length_of_slice hd
      obtain ⟨work, hw⟩ := putSlice_of_fits (cells := s.work) (i := 0)
        (bs := d ++ List.replicate (s.glen - 1) false) (by simp; omega)
      exact ⟨_, execCompute_of_valid hv hd hw⟩
    · exact ⟨_, execCompute_of_rejected hv⟩

/-- A running computation's scan position lies within the data, so one of the two internal steps is enabled and finds
every cell it reads. -/
theorem sequencerStep_total {s : State} (h : s.Inv) : ∃ t, sequencerStep s = .next t := by
  cases hp : s.phase with
  | idle => exact ⟨s, sequencerStep_of_idle hp⟩
  | scan =>
    obtain ⟨-, -, -, -, -, hle⟩ := h.spec.scanning hp
    obtain hi | hi := hle.lt_or_eq
    · obtain ⟨d, g, work, -, -, -, -, -, hs, -⟩ := scanStep_spec h hp hi
      exact ⟨_, (sequencerStep_of_lt hp hi).trans hs⟩
    · obtain ⟨d, g, rem, -, -, -, -, -, hs⟩ := finishStep_spec h hp hi
      exact ⟨_, (sequencerStep_of_eq hp hi).trans hs⟩

/-- Every slot reads a value: an index that a character port accepts selects a cell below a length. -/
theorem regRead_total {s : State} (h : s.Inv) (slot : Option Reg) : ∃ v, regRead s slot = some v := by
  have hdata : ∀ {i}, i < s.dlen → ∃ v, charOf s.data i = some v := fun hi =>
    let ⟨_, hd⟩ := h.dataValued
    charOf_total hd hi
  have hrem : ∀ {i}, s.rvalid = true → i < s.rlen → ∃ v, charOf s.rem i = some v := fun hr hi =>
    let ⟨_, hbits, _⟩ := h.zeroFlag hr
    charOf_total hbits hi
  match slot with
  | none | some .cmd | some .status | some .cap | some .dlen | some .glen | some .rlen | some .ridx =>
    exact ⟨_, rfl⟩
  | some .remch =>
    simp only [regRead, remchWord]
    split
    · next hsel => exact hrem hsel.1 hsel.2
    · exact ⟨_, rfl⟩
  | some .framech =>
    simp only [regRead, framechWord]
    split
    · next hsel => exact hdata hsel.2
    split
    · next hno hsel =>
      have hge : s.dlen ≤ s.ridx.toNat := not_lt.mp fun hlt => hno ⟨hsel.1, hlt⟩
      exact hrem hsel.1 (by omega)
    · exact ⟨_, rfl⟩

theorem dispatchCommand_total {s : State} (h : s.Inv) (v : Word) : ∃ t, dispatchCommand v s = .next t := by
  cases hp : s.phase with
  | scan => exact ⟨_, dispatchCommand_of_scan hp⟩
  | idle =>
    cases hd : decode v with
    | ok i => exact dispatchCommand_of_ok hp hd ▸ exec_total h i
    | error e => exact ⟨_, dispatchCommand_of_error hp hd⟩

theorem hostAccess_total {s : State} (h : s.Inv) {a : Access} (ha : accessRefusal s.cfg a = none) :
    ∃ t, hostAccess a s = .next t := by
  cases a with
  | read addr width burst =>
    rw [hostAccess_read ha]
    obtain ⟨v, hv⟩ := regRead_total h (accessSlot s.cfg (.read addr width burst))
    exact ⟨_, hostRead_of_value hv⟩
  | write addr lanes burst =>
    rw [hostAccess_write ha]
    by_cases hslot : accessSlot s.cfg (.write addr lanes burst) = some .cmd
    · rw [hslot]
      exact dispatchCommand_total h _
    · exact ⟨_, hostWrite_of_ne hslot _ _⟩

/-- The event of a turn has an outcome: an access moves only where it is admitted. -/
theorem runEvent_total {s : State} (h : s.Inv) {p rest : List Event} {e : Event}
    (hn : nextTurn s.cfg p = some (e, rest)) : ∃ t, runEvent e s = .next t := by
  cases e with
  | access a => exact hostAccess_total h (nextTurn_access hn).2
  | sequencer => exact sequencerStep_total h
  | reset a => exact ⟨_, rfl⟩
  | powerLoss => exact ⟨_, rfl⟩

/-! ### Steps and runs never fault -/

/-- The host is stuck before an idle block and nothing else is pending; `r` says why (R62; assumption 10). -/
def State.stuckAt (s : State) (r : Refusal) : Prop :=
  nextTurn s.cfg s.pending = none ∧ s.phase = .idle ∧
    ∃ a rest, s.pending = .access a :: rest ∧ accessRefusal s.cfg a = some r

theorem step_of_stuckAt {s : State} {r : Refusal} (h : s.stuckAt r) : step s = .refused r := by
  obtain ⟨hn, hp, a, rest, hpend, hr⟩ := h
  have hs : step s = aloneStep s := by unfold step; rw [hn]
  have ha : aloneStep s = hostAccess a s := by unfold aloneStep; rw [hpend]; exact if_neg (by simp [hp])
  rw [hs, ha]
  unfold hostAccess
  rw [hr]

/-- A step goes on, except where the host is stuck. -/
theorem step_total_or_stuck {s : State} (h : s.Inv) : (∃ t, step s = .next t) ∨ ∃ r, s.stuckAt r := by
  cases hn : nextTurn s.cfg s.pending with
  | none =>
    obtain hs | ⟨hp, a, rest, r, hpend, hr, -⟩ := step_alone hn
    · exact .inl (hs ▸ sequencerStep_total h)
    · exact .inr ⟨r, hn, hp, a, rest, hpend, hr⟩
  | some p =>
    rw [step_of_turn hn]
    exact .inl (runEvent_total (s := { s with pending := p.2 }) (h.of_same_block rfl) hn)

/-! ### Admitted schedules -/

/-- The block's parameters and the environment's schedule. -/
def State.environment (s : State) : Config × List Event := (s.cfg, s.pending)

theorem exec_environment {i : Instr} {s t : State} (h : exec i s = .next t) : t.environment = s.environment := by
  cases i with
  | nop => cases h; rfl
  | clear => cases h; rfl
  | sel idx => cases h; rfl
  | pushd ch => rw [execPushd_frame h]; rfl
  | pushg ch => rw [execPushg_frame h]; rfl
  | compute => rw [execCompute_frame h]; rfl

theorem sequencerStep_environment {s t : State} (h : sequencerStep s = .next t) : t.environment = s.environment := by
  rw [(sequencerStep_writes h).1]
  rfl

/-- No event touches the parameters or what is still to come. -/
theorem runEvent_environment {e : Event} {s t : State} (h : runEvent e s = .next t) :
    t.environment = s.environment := by
  obtain ⟨a, -, h⟩ | ⟨-, h⟩ | ⟨-, _, _, rfl⟩ := runEvent_cases h
  · obtain ⟨-, ⟨v, -, rfl⟩ | ⟨_, _, _, -, -, h⟩ | rfl⟩ := hostAccess_cases h
    · rfl
    · obtain ⟨-, rfl⟩ | ⟨i, -, -, h⟩ | ⟨_, -, -, rfl⟩ := dispatchCommand_cases h
      · rfl
      · exact exec_environment h
      · rfl
    · rfl
  · exact sequencerStep_environment h
  · rfl

/-- With an admitted schedule the first event moves. -/
theorem nextTurn_of_admissible {s : State} (h : s.admissible) :
    nextTurn s.cfg s.pending = s.pending.head?.map fun e => (e, s.pending.tail) := by
  cases hp : s.pending with
  | nil => rfl
  | cons e rest =>
    cases e with
    | access a => exact nextTurn_of_admitted (h (.access a) (by simp [hp]))
    | _ => rfl

/-- No step makes an admitted schedule inadmissible. -/
theorem step_keeps_admissible {s t : State} (h : s.admissible) (hs : step s = .next t) : t.admissible := by
  obtain ⟨-, hs⟩ | ⟨e, rest, hn, hs⟩ := step_cases hs
  · obtain ⟨hcfg, hpend⟩ := Prod.mk.inj (sequencerStep_environment hs)
    rwa [State.admissible, hcfg, hpend]
  · obtain ⟨hcfg, hpend⟩ := Prod.mk.inj (runEvent_environment hs)
    rw [nextTurn_of_admissible h] at hn
    obtain ⟨x, -, heq⟩ := Option.map_eq_some_iff.mp hn
    cases heq
    rw [State.admissible, hcfg, hpend]
    exact fun e he => h e (List.mem_of_mem_tail he)

/-- A stuck host's access is still to come. -/
theorem State.stuckAt.not_admissible {s : State} {r : Refusal} (h : s.stuckAt r) : ¬s.admissible := by
  obtain ⟨-, -, a, rest, hp, hr⟩ := h
  intro ha
  cases hr.symm.trans (ha (.access a) (by simp [hp]))

/-- A run from a state that meets the invariant goes on in such states, or is refused at an access that was not
admitted. -/
theorem run_inv_or_refused {s : State} (h : s.Inv) (k : Nat) :
    (∃ t, run k s = .next t ∧ t.Inv) ∨ (¬s.admissible ∧ ∃ r, run k s = .refused r) := by
  induction k generalizing s with
  | zero => exact .inl ⟨s, rfl, h⟩
  | succ k ih =>
    obtain ⟨t, hs⟩ | ⟨r, hstuck⟩ := step_total_or_stuck h
    · rw [run_succ_of_next hs]
      exact (ih (step_keeps_inv h hs)).imp_right (And.imp_left (mt (step_keeps_admissible · hs)))
    · exact .inr ⟨hstuck.not_admissible, r, run_succ_of_refused (step_of_stuckAt hstuck)⟩

/-- Settles O11: a run from a state that meets the invariant can stop only at an access that is not admitted. -/
theorem invariantRunsNeverFault : Obligations.InvariantRunsNeverFault := by
  intro s k h
  obtain ⟨t, ht, hinv⟩ | ⟨hna, r, hr⟩ := run_inv_or_refused h k
  · exact ⟨fun f hf => (nomatch hf.symm.trans ht), fun _ => ⟨t, ht, hinv⟩⟩
  · exact ⟨fun f hf => (nomatch hf.symm.trans hr), fun ha => absurd ha hna⟩

end Sys2Proof.Machine
end

section
/-!
PROOFS. What no rule reads never matters: one lemma for each operation says that two states which are the same for the
host stay so (R43, R46).
-/

namespace Sys2Proof.Machine

/-! ### The relation -/

theorem State.sameForHost.refl (s : State) : s.sameForHost s :=
  ⟨rfl, rfl, rfl, fun _ => rfl, fun _ => ⟨rfl, rfl⟩⟩

/-- The second state is the first with other cells and another scan position. -/
theorem State.sameForHost.cells {s s' : State} (h : s.sameForHost s') :
    ∃ data gen work rem scanI, s' = { s with data := data, gen := gen, work := work, rem := rem, scanI := scanI } :=
  ⟨_, _, _, _, _, h.fields⟩

/-- Giving both states the same flags, error, read index and records of the environment keeps the relation. -/
theorem State.sameForHost.with_fields {s s' t t' : State} (h : s.sameForHost s')
    (e : t = { s with
      ridx := t.ridx, errcode := t.errcode, invch := t.invch, dovf := t.dovf, govf := t.govf, cmdlost := t.cmdlost
      pending := t.pending, answers := t.answers, draws := t.draws })
    (e' : t' = { s' with
      ridx := t.ridx, errcode := t.errcode, invch := t.invch, dovf := t.dovf, govf := t.govf, cmdlost := t.cmdlost
      pending := t.pending, answers := t.answers, draws := t.draws }) : t.sameForHost t' := by
  rw [e', e]
  obtain ⟨data, gen, work, rem, scanI, rfl⟩ := h.cells
  exact ⟨rfl, h.data, h.gen, h.result, h.scan⟩

/-- Withdrawing the result keeps the relation: REM is then unreadable (R100). -/
theorem State.sameForHost.clearResult {s s' : State} (h : s.sameForHost s') :
    (clearResult s).sameForHost (clearResult s') := by
  obtain ⟨data, gen, work, rem, scanI, rfl⟩ := h.cells
  exact ⟨rfl, h.data, h.gen, nofun, h.scan⟩

/-! ### Commands -/

theorem execPushd_sameForHost {ch : Byte} {s s' t t' : State} (hs : s.Inv) (h : s.sameForHost s')
    (hp : s.phase = .idle) (ht : execPushd ch s = .next t) (ht' : execPushd ch s' = .next t') :
    t.sameForHost t' := by
  obtain ⟨data, gen, work, rem, scanI, rfl⟩ := h.cells
  obtain ⟨hc, rfl⟩ | ⟨b, hc, hfull, rfl⟩ | ⟨b, cells, hc, hroom, hput, rfl⟩ := execPushd_cases ht
  · cases ht'.symm.trans (execPushd_of_invalid hc)
    exact h.clearResult.with_fields rfl rfl
  · cases ht'.symm.trans (execPushd_of_full hc hfull)
    exact h.clearResult.with_fields rfl rfl
  · obtain ⟨d, hd⟩ := hs.dataValued
    obtain ⟨hc', -⟩ | ⟨-, -, hfull, -⟩ | ⟨b', cells', hc', -, hput', rfl⟩ := execPushd_cases ht'
    · cases hc.symm.trans hc'
    · exact absurd hfull hroom
    cases hc.symm.trans hc'
    exact ⟨rfl, (slice_put_end (h.data.trans hd) hput').trans (slice_put_end hd hput).symm, h.gen, nofun,
      by simp [hp]⟩

theorem execPushg_sameForHost {ch : Byte} {s s' t t' : State} (hs : s.Inv) (h : s.sameForHost s')
    (hp : s.phase = .idle) (ht : execPushg ch s = .next t) (ht' : execPushg ch s' = .next t') :
    t.sameForHost t' := by
  obtain ⟨data, gen, work, rem, scanI, rfl⟩ := h.cells
  obtain ⟨hc, rfl⟩ | ⟨b, hc, hfull, rfl⟩ | ⟨b, cells, hc, hroom, hput, rfl⟩ := execPushg_cases ht
  · cases ht'.symm.trans (execPushg_of_invalid hc)
    exact h.clearResult.with_fields rfl rfl
  · cases ht'.symm.trans (execPushg_of_full hc hfull)
    exact h.clearResult.with_fields rfl rfl
  · obtain ⟨g, hg⟩ := hs.genValued
    obtain ⟨hc', -⟩ | ⟨-, -, hfull, -⟩ | ⟨b', cells', hc', -, hput', rfl⟩ := execPushg_cases ht'
    · cases hc.symm.trans hc'
    · exact absurd hfull hroom
    cases hc.symm.trans hc'
    exact ⟨rfl, h.data, (slice_put_end (h.gen.trans hg) hput').trans (slice_put_end hg hput).symm, nofun,
      by simp [hp]⟩

/-- An accepted COMPUTE puts the same augmented message into both working buffers, since the data agree (R126). -/
theorem execCompute_sameForHost {s s' t t' : State} (h : s.sameForHost s')
    (ht : execCompute s = .next t) (ht' : execCompute s' = .next t') : t.sameForHost t' := by
  obtain ⟨data, gen, work, rem, scanI, rfl⟩ := h.cells
  obtain ⟨hv, rfl⟩ | ⟨d, w, hv, hd, hput, rfl⟩ := execCompute_cases ht
  · cases ht'.symm.trans (execCompute_of_rejected hv)
    exact h.clearResult.with_fields rfl rfl
  · obtain ⟨hv', -⟩ | ⟨d', w', -, hd', hput', rfl⟩ := execCompute_cases ht'
    · exact absurd hv hv'
    cases hd'.symm.trans (h.data.trans hd)
    obtain ⟨-, -, hg1, -⟩ := validate_eq_none.mp hv
    have hlen : (d ++ List.replicate (s.glen - 1) false).length = s.dlen + s.glen - 1 := by
      rw [List.length_append, List.length_replicate, length_of_slice hd]; omega
    exact ⟨rfl, h.data, h.gen, nofun,
      fun _ => ⟨rfl, hlen ▸ (slice_putSlice hput').trans (slice_putSlice hput).symm⟩⟩

theorem exec_sameForHost {i : Instr} {s s' t t' : State} (hs : s.Inv) (hs' : s'.Inv) (h : s.sameForHost s')
    (hp : s.phase = .idle) (ht : exec i s = .next t) (ht' : exec i s' = .next t') : t.sameForHost t' := by
  cases i with
  | nop => cases ht; cases ht'; exact h
  | clear =>
    cases ht; cases ht'
    obtain ⟨data, gen, work, rem, scanI, rfl⟩ := h.cells
    exact ⟨rfl, rfl, rfl, nofun, by simp [hp]⟩
  | pushd ch => exact execPushd_sameForHost hs h hp ht ht'
  | pushg ch => exact execPushg_sameForHost hs h hp ht ht'
  | compute => exact execCompute_sameForHost h ht ht'
  | sel idx =>
    cases ht; cases ht'
    obtain ⟨data, gen, work, rem, scanI, rfl⟩ := h.cells
    exact h.with_fields rfl rfl

/-! ### The sequencer -/

/-- Both working buffers hold the same iteration of R120's loop, so they do after one more, and both finish steps latch
the same remainder (R127, R128). -/
theorem sequencerStep_sameForHost {s s' t t' : State} (hs : s.Inv) (hs' : s'.Inv) (h : s.sameForHost s')
    (ht : sequencerStep s = .next t) (ht' : sequencerStep s' = .next t') : t.sameForHost t' := by
  obtain ⟨data, gen, work, rem, scanI, rfl⟩ := h.cells
  cases hp : s.phase with
  | idle =>
    cases ht.symm.trans (sequencerStep_of_idle hp)
    cases ht'.symm.trans (sequencerStep_of_idle hp)
    exact h
  | scan =>
    obtain rfl : scanI = s.scanI := (h.scan hp).1
    obtain ⟨-, -, -, -, -, hle⟩ := hs.spec.scanning hp
    obtain hi | hi := hle.lt_or_eq
    · obtain ⟨d, g, w, hd, hg, -, -, -, he, hw⟩ := scanStep_spec hs hp hi
      obtain ⟨d', g', w', hd', hg', -, -, -, he', hw'⟩ := scanStep_spec hs' hp hi
      cases ht.symm.trans ((sequencerStep_of_lt hp hi).trans he)
      cases ht'.symm.trans ((sequencerStep_of_lt (by exact hp) (by exact hi)).trans he')
      cases hd'.symm.trans (h.data.trans hd)
      cases hg'.symm.trans (h.gen.trans hg)
      exact ⟨rfl, h.data, h.gen, h.result, fun _ => ⟨rfl, hw'.trans hw.symm⟩⟩
    · obtain ⟨d, g, r, hd, hg, -, hput, hlen, he⟩ := finishStep_spec hs hp hi
      obtain ⟨d', g', r', hd', hg', -, hput', -, he'⟩ := finishStep_spec hs' hp hi
      cases ht.symm.trans ((sequencerStep_of_eq hp hi).trans he)
      cases ht'.symm.trans ((sequencerStep_of_eq (by exact hp) (by exact hi)).trans he')
      cases hd'.symm.trans (h.data.trans hd)
      cases hg'.symm.trans (h.gen.trans hg)
      have hrem : Cells.slice r' 0 (s.glen - 1) = Cells.slice r 0 (s.glen - 1) :=
        hlen ▸ (slice_putSlice hput').trans (slice_putSlice hput).symm
      exact ⟨rfl, h.data, h.gen, fun _ => hrem, nofun⟩

/-! ### The port -/

/-- Every register reads the same: the character ports select data cells below DLEN, and cells of REM only with a
result. -/
theorem regRead_sameForHost {s s' : State} (hs : s.Inv) (h : s.sameForHost s') (slot : Option Reg) :
    regRead s' slot = regRead s slot := by
  obtain ⟨data, gen, work, rem, scanI, rfl⟩ := h.cells
  obtain ⟨d, hd⟩ := hs.dataValued
  have hdata : ∀ {i}, i < s.dlen → charOf data i = charOf s.data i := fun hi =>
    (charOf_of_slice (h.data.trans hd) hi).trans (charOf_of_slice hd hi).symm
  have hrem : ∀ {i}, s.rvalid = true → i < s.rlen → charOf rem i = charOf s.rem i := fun hr hi =>
    let ⟨_, hbits, _⟩ := hs.zeroFlag hr
    (charOf_of_slice ((h.result hr).trans hbits) hi).trans (charOf_of_slice hbits hi).symm
  match slot with
  | none | some .cmd | some .status | some .cap | some .dlen | some .glen | some .rlen | some .ridx => rfl
  | some .remch => exact ite_congr rfl (fun hsel => hrem hsel.1 hsel.2) fun _ => rfl
  | some .framech =>
    refine ite_congr rfl (fun hsel => hdata hsel.2) fun hno => ite_congr rfl (fun hsel => ?_) fun _ => rfl
    have hge : s.dlen ≤ s.ridx.toNat := not_lt.mp fun hlt => hno ⟨hsel.1, hlt⟩
    exact hrem hsel.1 (Nat.sub_lt_left_of_lt_add hge hsel.2)

theorem dispatchCommand_sameForHost {v : Word} {s s' t t' : State} (hs : s.Inv) (hs' : s'.Inv)
    (h : s.sameForHost s') (ht : dispatchCommand v s = .next t) (ht' : dispatchCommand v s' = .next t') :
    t.sameForHost t' := by
  obtain ⟨hp, rfl⟩ | ⟨i, hp, hd, ht⟩ | ⟨e, hp, hd, rfl⟩ := dispatchCommand_cases ht
  · obtain ⟨data, gen, work, rem, scanI, rfl⟩ := h.cells
    cases ht'.symm.trans (dispatchCommand_of_scan hp)
    exact h.with_fields rfl rfl
  · have hp' : s'.phase = .idle := by rw [h.fields]; exact hp
    exact exec_sameForHost hs hs' h hp ht ((dispatchCommand_of_ok hp' hd).symm.trans ht')
  · obtain ⟨data, gen, work, rem, scanI, rfl⟩ := h.cells
    cases ht'.symm.trans (dispatchCommand_of_error hp hd)
    exact h.with_fields rfl rfl

theorem hostAccess_sameForHost {a : Access} {s s' t t' : State} (hs : s.Inv) (hs' : s'.Inv) (h : s.sameForHost s')
    (ha : accessRefusal s.cfg a = none) (ht : hostAccess a s = .next t) (ht' : hostAccess a s' = .next t') :
    t.sameForHost t' := by
  have hcfg : s'.cfg = s.cfg := by rw [h.fields]
  have ha' : accessRefusal s'.cfg a = none := by rw [hcfg, ha]
  cases a with
  | read addr width burst =>
    rw [hostAccess_read ha] at ht
    rw [hostAccess_read ha', hcfg] at ht'
    obtain ⟨v, hv⟩ := regRead_total hs (accessSlot s.cfg (.read addr width burst))
    cases ht.symm.trans (hostRead_of_value hv)
    cases ht'.symm.trans (hostRead_of_value ((regRead_sameForHost hs h _).trans hv))
    obtain ⟨data, gen, work, rem, scanI, rfl⟩ := h.cells
    exact h.with_fields rfl rfl
  | write addr lanes burst =>
    rw [hostAccess_write ha] at ht
    rw [hostAccess_write ha', hcfg] at ht'
    by_cases hslot : accessSlot s.cfg (.write addr lanes burst) = some .cmd
    · rw [hslot] at ht ht'
      exact dispatchCommand_sameForHost hs hs' h ht ht'
    · cases ht.symm.trans (hostWrite_of_ne hslot _ s)
      cases ht'.symm.trans (hostWrite_of_ne hslot _ s')
      exact h

/-! ### Events, steps and runs -/

/-- What a coinciding access leaves behind is the host's alone (R230). -/
theorem resetBlock_coincidingAnswer_sameForHost {s s' : State} (h : s.sameForHost s') (a : Option Access) :
    resetBlock (coincidingAnswer a s') = resetBlock (coincidingAnswer a s) := by
  obtain ⟨data, gen, work, rem, scanI, rfl⟩ := h.cells
  match a with
  | none | some (.write _ _ _) => rfl
  | some (.read addr width burst) =>
    simp only [coincidingAnswer]
    split <;> rfl

theorem runEvent_sameForHost {p rest : List Event} {e : Event} {s s' t t' : State} (hs : s.Inv) (hs' : s'.Inv)
    (h : s.sameForHost s') (hn : nextTurn s.cfg p = some (e, rest)) (ht : runEvent e s = .next t)
    (ht' : runEvent e s' = .next t') : t.sameForHost t' := by
  cases e with
  | access a => exact hostAccess_sameForHost hs hs' h (nextTurn_access hn).2 ht ht'
  | sequencer => exact sequencerStep_sameForHost hs hs' h ht ht'
  | reset a =>
    cases ht
    cases ht'
    rw [resetBlock_coincidingAnswer_sameForHost h]
    exact .refl _
  | powerLoss =>
    cases ht
    cases ht'
    have heq : resetBlock s' = resetBlock s := resetBlock_coincidingAnswer_sameForHost h none
    rw [heq]
    exact .refl _

/-- Two steps that go on take the same turn. -/
theorem step_sameForHost {s s' t t' : State} (hs : s.Inv) (hs' : s'.Inv) (h : s.sameForHost s')
    (ht : step s = .next t) (ht' : step s' = .next t') : t.sameForHost t' := by
  have hturn : nextTurn s'.cfg s'.pending = nextTurn s.cfg s.pending := by rw [h.fields]
  obtain ⟨hn, ht⟩ | ⟨e, rest, hn, ht⟩ := step_cases ht <;>
    obtain ⟨hn', ht'⟩ | ⟨e', rest', hn', ht'⟩ := step_cases ht' <;> rw [hturn, hn] at hn'
  · exact sequencerStep_sameForHost hs hs' h ht ht'
  · cases hn'
  · cases hn'
  · cases hn'
    refine runEvent_sameForHost (s := { s with pending := rest }) (s' := { s' with pending := rest })
      (hs.of_same_block rfl) (hs'.of_same_block rfl) ?_ hn ht ht'
    obtain ⟨data, gen, work, rem, scanI, rfl⟩ := h.cells
    exact h.with_fields rfl rfl

theorem stuckAt_sameForHost {s s' : State} (h : s.sameForHost s') (r : Refusal) : s'.stuckAt r ↔ s.stuckAt r := by
  obtain ⟨data, gen, work, rem, scanI, rfl⟩ := h.cells
  exact Iff.rfl

/-- Of two runs the second goes on where the first does, to states that are the same for the host, and is refused where
the first is. -/
theorem run_sameForHost {s s' : State} (hs : s.Inv) (hs' : s'.Inv) (h : s.sameForHost s') (k : Nat) :
    (∃ t t', run k s = .next t ∧ run k s' = .next t' ∧ t.Inv ∧ t.sameForHost t') ∨
    ∃ r, run k s = .refused r ∧ run k s' = .refused r := by
  induction k generalizing s s' with
  | zero => exact .inl ⟨s, s', rfl, rfl, hs, h⟩
  | succ k ih =>
    obtain ⟨t, ht⟩ | ⟨r, hr⟩ := step_total_or_stuck hs <;>
      obtain ⟨t', ht'⟩ | ⟨r', hr'⟩ := step_total_or_stuck hs'
    · rw [run_succ_of_next ht, run_succ_of_next ht']
      exact ih (step_keeps_inv hs ht) (step_keeps_inv hs' ht') (step_sameForHost hs hs' h ht ht')
    · cases ht.symm.trans (step_of_stuckAt ((stuckAt_sameForHost h r').mp hr'))
    · cases ht'.symm.trans (step_of_stuckAt ((stuckAt_sameForHost h r).mpr hr))
    · exact .inr ⟨r, run_succ_of_refused (step_of_stuckAt hr),
        run_succ_of_refused (step_of_stuckAt ((stuckAt_sameForHost h r).mpr hr))⟩

/-- Settles O15, by the simulation of whole runs; the states it ends in read alike in every slot. -/
theorem unreadableCellsNeverMatter : Obligations.UnreadableCellsNeverMatter := by
  intro s s' k hs hs' h
  obtain ⟨t, t', ht, ht', hinv, hsame⟩ | ⟨r, hr, hr'⟩ := run_sameForHost hs hs' h k
  · have hanswers : t'.answers = t.answers := by rw [hsame.fields]
    refine ⟨fun u hu => ?_, fun r hr => (nomatch hr.symm.trans ht)⟩
    cases ht.symm.trans hu
    exact ⟨t', ht', hsame, hanswers, regRead_sameForHost hinv hsame⟩
  · refine ⟨fun u hu => (nomatch hu.symm.trans hr), fun r₀ hr₀ => ?_⟩
    cases hr.symm.trans hr₀
    exact hr'

end Sys2Proof.Machine
end

section
/-!
PROOFS. What the registers read: STATUS bit by bit, the lengths, the reserved slots, and every register after reset and
after CLEAR (R34 to R44).
-/

namespace Sys2Proof.Machine

/-! ### STATUS -/

/-- No two errors share a code (R201). -/
theorem ErrCode.code_injective : Function.Injective ErrCode.code := by
  intro a b
  cases a <;> cases b <;> simp [ErrCode.code]

theorem ErrCode.code_eq_iff {e e' : ErrCode} : e.code = e'.code ↔ e = e' := code_injective.eq_iff

theorem ErrCode.code_le (e : ErrCode) : e.code ≤ 4 := by
  cases e <;> decide

theorem err_eq_true_iff {s : State} : s.err = true ↔ s.errcode ≠ .none := by
  rw [State.err, bne_iff_ne]
  exact not_congr (ErrCode.code_eq_iff (e' := .none))

theorem statusWord_busy (s : State) : (statusWord s).getLsbD 0 = s.busy := by
  simpa using getLsbD_statusWord s (j := 0) (by decide)

theorem statusWord_rvalid (s : State) : (statusWord s).getLsbD 1 = s.rvalid := by
  simpa using getLsbD_statusWord s (j := 1) (by decide)

theorem statusWord_err (s : State) : (statusWord s).getLsbD 2 = s.err := by
  simpa using getLsbD_statusWord s (j := 2) (by decide)

theorem statusWord_rzero (s : State) : (statusWord s).getLsbD 3 = s.rzero := by
  simpa using getLsbD_statusWord s (j := 3) (by decide)

theorem statusWord_invch (s : State) : (statusWord s).getLsbD 8 = s.invch := by
  simpa using getLsbD_statusWord s (j := 8) (by decide)

theorem statusWord_dovf (s : State) : (statusWord s).getLsbD 9 = s.dovf := by
  simpa using getLsbD_statusWord s (j := 9) (by decide)

theorem statusWord_govf (s : State) : (statusWord s).getLsbD 10 = s.govf := by
  simpa using getLsbD_statusWord s (j := 10) (by decide)

theorem statusWord_cmdlost (s : State) : (statusWord s).getLsbD 11 = s.cmdlost := by
  simpa using getLsbD_statusWord s (j := 11) (by decide)

/-- R35 puts nothing above bit 11. -/
theorem statusWord_high (s : State) : (statusWord s).extractLsb' 12 20 = 0 := by
  ext j hj
  rw [BitVec.getElem_extractLsb', getLsbD_statusWord _ (by omega)]
  simp
  omega

/-- Settles O23, from R35's formula bit by bit and the codes of R201. -/
theorem statusShowsEveryFlag : Obligations.StatusShowsEveryFlag := by
  intro s
  refine ⟨statusWord s, rfl, ?_⟩
  rw [statusWord_errcode, statusWord_busy, statusWord_err, busy_eq_true]
  exact ⟨Iff.rfl, statusWord_rvalid s, bne_iff_ne, statusWord_rzero s, ErrCode.code_eq_iff (e' := .none),
    ErrCode.code_eq_iff (e' := .invalidCharacter), ErrCode.code_eq_iff (e' := .emptyInput),
    ErrCode.code_eq_iff (e' := .inputTooLong), ErrCode.code_eq_iff (e' := .illegalCommand), s.errcode.code_le,
    statusWord_invch s, statusWord_dovf s, statusWord_govf s, statusWord_cmdlost s, statusWord_high s⟩

/-! ### The lengths -/

@[simp] theorem toNat_zext32 (x : Index) : (zext32 x).toNat = x.toNat :=
  BitVec.toNat_setWidth_of_le (by omega)

@[simp] theorem zext32_high (x : Index) : (zext32 x).extractLsb' 16 16 = 0 := by
  ext j hj
  simp [zext32]

/-- A number that 16 bits hold is read as it is (R13, R19). -/
theorem zext32_ofNat {n : Nat} (h : n ≤ 65535) : zext32 (BitVec.ofNat 16 n) = BitVec.ofNat 32 n := by
  apply BitVec.eq_of_toNat_eq
  rw [toNat_zext32, BitVec.toNat_ofNat, BitVec.toNat_ofNat]
  omega

/-- What a length register reads: the number itself, with 0 in bits [31:16]. -/
theorem exists_zext32_ofNat {n : Nat} (h : n ≤ 65535) :
    ∃ v, some (zext32 (BitVec.ofNat 16 n)) = some v ∧ v.toNat = n ∧ v.extractLsb' 16 16 = 0 := by
  refine ⟨_, rfl, ?_, zext32_high _⟩
  rw [toNat_zext32, BitVec.toNat_ofNat]
  omega

/-- RLEN is `GLEN - 1` with a result and 0 without one (R32). -/
theorem State.Inv.rlen_eq {s : State} (h : s.Inv) : s.rlen = if s.rvalid then s.glen - 1 else 0 := by
  split
  · next hr =>
    obtain ⟨-, -, -, -, hrlen, -⟩ := h.spec.result hr
    exact hrlen
  · next hr => exact (h.spec.noResult (Bool.eq_false_iff.mpr hr)).1

/-- Settles O24: under the invariant every length is at most `MAX_BITS`, so 16 bits hold it. -/
theorem lengthRegistersRead : Obligations.LengthRegistersRead := by
  intro s h
  obtain ⟨-, hmax, -⟩ := h.legal
  obtain ⟨hd, hg⟩ := h.spec.lengths
  have hrlen := h.rlen_eq
  have hr : s.rlen ≤ 65535 := by rw [hrlen]; split <;> omega
  obtain ⟨v, hv, hvn, hvhigh⟩ := exists_zext32_ofNat hr
  exact ⟨exists_zext32_ofNat hmax, exists_zext32_ofNat (hd.trans hmax), exists_zext32_ofNat (hg.trans hmax),
    ⟨v, hv, hvn, hvhigh, hvn.trans hrlen⟩, zext32 s.ridx, rfl, toNat_zext32 _, zext32_high _⟩

/-! ### The reserved slots -/

/-- A write at an offset other than CMD's changes nothing (R65). -/
theorem step_write_of_ne_cmd {s : State} {off : Nat} {v : Word} {rest : List Event} (hle : off ≤ 0x3C)
    (h4 : off % 4 = 0) (hslot : regAt off ≠ some .cmd) (hp : s.pending = .access (writeAt s.cfg off v) :: rest) :
    step s = .next { s with pending := rest } :=
  calc step s = hostAccess (writeAt s.cfg off v) { s with pending := rest } :=
        step_access hp (accessRefusal_writeAt hle h4)
    _ = hostWrite (regAt off) v { s with pending := rest } := hostAccess_writeAt hle h4
    _ = .next { s with pending := rest } := hostWrite_of_ne hslot v _

theorem reserved_offsets :
    ∀ off ∈ [0x24, 0x28, 0x2C, 0x30, 0x34, 0x38, 0x3C], off ≤ 0x3C ∧ off % 4 = 0 ∧ regAt off = none := by
  decide

/-- Settles O25: the seven offsets are admitted ones that name no register. -/
theorem reservedSlotsReadZero : Obligations.ReservedSlotsReadZero := by
  refine fun s => ⟨rfl, fun off hoff => ?_⟩
  obtain ⟨hle, h4, hslot⟩ := reserved_offsets off hoff
  exact ⟨by rw [hslot]; rfl, fun v rest => step_write_of_ne_cmd hle h4 (by simp [hslot])⟩

/-! ### After reset and after CLEAR -/

/-- Right after reset every register but CAP reads 0. -/
theorem regRead_resetFor (c : Config) :
    ∀ r ∈ [Reg.status, .dlen, .glen, .rlen, .ridx, .remch, .framech],
      regRead (State.resetFor c) (some r) = some 0 := by
  have hstatus : statusWord (State.resetFor c) = 0 := by
    have hbusy : (State.resetFor c).busy = false := busy_eq_false.mpr rfl
    simp [statusWord, hbusy, State.err, ErrCode.code, flagBit]
  simp only [List.mem_cons, List.not_mem_nil, or_false]
  rintro r (rfl | rfl | rfl | rfl | rfl | rfl | rfl)
  · exact congrArg some hstatus
  all_goals rfl

/-- CAP reads `MAX_BITS` (R36). -/
theorem regRead_cap {s : State} (h : s.cfg.Legal) : regRead s (some .cap) = some (BitVec.ofNat 32 s.cfg.maxBits) :=
  congrArg some (zext32_ofNat h.2.1)

/-- The reset state with other cells, another scan position and the environment's records: what CLEAR leaves of an idle
block (R43, R171). -/
def State.cleared (s : State) : State :=
  { State.resetFor s.cfg with
    data := s.data, gen := s.gen, work := s.work, rem := s.rem, scanI := s.scanI
    pending := s.pending, answers := s.answers, draws := s.draws }

theorem exec_clear_of_idle {s : State} (hp : s.phase = .idle) : exec .clear s = .next s.cleared := by
  obtain ⟨cfg, data, dlen, gen, glen, work, rem, rlen, ridx, phase, scanI⟩ := s
  cases hp
  rfl

/-- With no data, no generator and no result, no register shows a cell. -/
theorem regRead_resetFor_cells {c : Config} (h : c.Legal) (data gen work rem : Cells) (k : Nat) (slot : Option Reg) :
    regRead { State.resetFor c with data := data, gen := gen, work := work, rem := rem, scanI := k } slot =
      regRead (State.resetFor c) slot :=
  regRead_sameForHost (resetFor_inv h) ⟨rfl, rfl, rfl, nofun, nofun⟩ slot

theorem regRead_cleared {s : State} (h : s.cfg.Legal) (slot : Option Reg) :
    regRead s.cleared slot = regRead (State.resetFor s.cfg) slot := by
  rw [← regRead_resetFor_cells h s.data s.gen s.work s.rem s.scanI]
  rfl

/-- Settles O6: the reset state's fields are R43's first column, CLEAR leaves the second, and states that differ from
the reset state in cells alone are the same for the host. -/
theorem resetAndClearValues : Obligations.ResetAndClearValues := by
  refine fun c h => ⟨?_, ?_, regRead_resetFor_cells h⟩
  · exact ⟨rfl, rfl, rfl, rfl, rfl, rfl, rfl, rfl, rfl, rfl, rfl, rfl,
      fun i => ⟨get_blank _ i, get_blank _ i, get_blank _ i, get_blank _ i⟩, regRead_cap h, regRead_resetFor c⟩
  · rintro s rfl hp
    exact ⟨s.cleared, exec_clear_of_idle hp, rfl, rfl, rfl, rfl, rfl, rfl, rfl, rfl, rfl, rfl, rfl, rfl, rfl, rfl,
      rfl, rfl, rfl, regRead_cap h, fun r hr => (regRead_cleared h _).trans (regRead_resetFor _ r hr)⟩

end Sys2Proof.Machine
end

section
/-!
PROOFS. Which steps write each element of the block (R21 to R31, R211).
-/

namespace Sys2Proof.Machine

/-- Everything a step can do to the block beside `CMDLOST`: a sequencer step, an executed command, an illegal word, a
reset, or nothing. -/
theorem step_writers {s t : State} (h : step s = .next t) :
    (s.sequences ∧ ∃ rest, sequencerStep { s with pending := rest } = .next t) ∨
    (∃ i, s.executes (.ok i) ∧ ∃ rest, exec i { s with pending := rest } = .next t) ∨
    (∃ e, s.executes (.error e) ∧ t = { s with errcode := t.errcode, pending := t.pending }) ∨
    (s.resets ∧ t.cfg = s.cfg ∧ t.rvalid = false ∧ t.rzero = false) ∨
    t = { s with cmdlost := t.cmdlost, pending := t.pending, answers := t.answers } := by
  obtain ⟨rest, hseq, hs⟩ | ⟨rest, rfl⟩ | ⟨rest, v, rfl⟩ | ⟨rest, -, rfl⟩ | ⟨rest, i, hi, hs⟩ |
    ⟨rest, e, he, rfl⟩ | ⟨rest, ans, dr, hr, rfl⟩ := step_kinds h
  · exact .inl ⟨hseq, rest, hs⟩
  · exact .inr (.inr (.inr (.inr rfl)))
  · exact .inr (.inr (.inr (.inr rfl)))
  · exact .inr (.inr (.inr (.inr rfl)))
  · exact .inr (.inl ⟨i, hi, rest, hs⟩)
  · exact .inr (.inr (.inl ⟨e, he, rfl⟩))
  · exact .inr (.inr (.inr (.inl ⟨hr, rfl, rfl, rfl⟩)))

/-- Settles O56: of the steps that write `ERRCODE`, a command is COMPUTE or CLEAR, since the sequencer leaves it. -/
theorem errcodeChangesOnlyBy : Obligations.ErrcodeChangesOnlyBy := by
  refine ⟨fun s t h hne => ?_, fun s => err_eq_true_iff⟩
  obtain ⟨-, rest, hs⟩ | ⟨i, hi, rest, hs⟩ | ⟨e, he, -⟩ | ⟨hr, -⟩ | heq := step_writers h
  · exact absurd (congrArg State.errcode (sequencerStep_writes hs).1) hne
  · obtain rfl | rfl := exec_errcode hs hne
    · exact .inl hi
    · exact .inr (.inr (.inl hi))
  · exact .inr (.inl ⟨e, he⟩)
  · exact .inr (.inr (.inr hr))
  · exact absurd (congrArg State.errcode heq) hne

/-- A command that withdraws the result is among the causes that R28 lists, beside reset. -/
theorem executes_of_withdraws {s : State} {i : Instr} (hi : s.executes (.ok i)) (hw : withdraws i) :
    (∃ ch, s.executes (.ok (.pushd ch)) ∨ s.executes (.ok (.pushg ch))) ∨ s.executes (.ok .clear) ∨
      s.executes (.ok .compute) ∨ s.resets := by
  obtain ⟨ch, rfl | rfl⟩ | rfl | rfl := hw
  · exact .inl ⟨ch, .inl hi⟩
  · exact .inl ⟨ch, .inr hi⟩
  · exact .inr (.inl hi)
  · exact .inr (.inr (.inl hi))

/-- Settles O57, by the frames of the sequencer and of each command; an illegal word, a lost command and a read write
none of the elements, and a reset is among the causes of each. -/
theorem onlyListedStepsWrite : Obligations.OnlyListedStepsWrite := by
  intro s t h
  obtain ⟨hseq, rest, hs⟩ | ⟨i, hi, rest, hs⟩ | ⟨-, -, heq⟩ | ⟨hr, hcfg, -⟩ | heq := step_writers h
  · obtain ⟨hframe, hwork, hres⟩ := sequencerStep_writes hs
    rw [hframe]
    simp only [ne_eq, not_true_eq_false, false_imp_iff, true_and]
    refine ⟨fun hne => ?_, fun hne => ?_, fun hne => ?_, fun _ => .inr (.inl hseq)⟩
    · exact .inr (.inl ⟨hseq, hwork.resolve_right hne⟩)
    · exact .inl ⟨hseq, (hres.resolve_right fun hkeep => hne hkeep.1).1⟩
    · exact .inl ⟨hseq, (hres.resolve_right fun hkeep => hne hkeep.2.1).1⟩
  · obtain ⟨hcfg, hrem, hdata, hdlen, hgen, hglen, hwork, hridx, hphase⟩ := exec_writes hs
    refine ⟨hcfg, fun hne => ?_, fun hne => ?_, fun hne => ?_, fun hne => ?_, fun hne => ?_, fun hne => ?_,
      fun hne => ?_, fun hne => ?_, fun hne => ?_⟩
    · obtain ⟨ch, rfl⟩ := hdata hne
      exact .inl ⟨ch, hi⟩
    · obtain ⟨ch, rfl⟩ | rfl := hdlen hne
      · exact .inl ⟨ch, hi⟩
      · exact .inr (.inl hi)
    · obtain ⟨ch, rfl⟩ := hgen hne
      exact .inl ⟨ch, hi⟩
    · obtain ⟨ch, rfl⟩ | rfl := hglen hne
      · exact .inl ⟨ch, hi⟩
      · exact .inr (.inl hi)
    · exact .inl (hwork hne ▸ hi)
    · exact absurd hrem hne
    · obtain ⟨hw, -⟩ | ⟨-, -, hkeep⟩ := exec_result hs
      · exact .inr (executes_of_withdraws hi hw)
      · exact absurd hkeep hne
    · obtain ⟨idx, rfl⟩ | rfl := hridx hne
      · exact .inl ⟨idx, hi⟩
      · exact .inr (.inl hi)
    · exact .inl (hphase hne ▸ hi)
  · rw [heq]
    simp
  · simp [hcfg, hr]
  · rw [heq]
    simp

/-- Settles O58: only the finish step sets the two flags, and the sequencer clears neither, because a scan that meets
the invariant has no result and so no `RZERO`. -/
theorem resultAppearsOnlyAtFinish : Obligations.ResultAppearsOnlyAtFinish := by
  intro s t h
  obtain ⟨hseq, rest, hs⟩ | ⟨i, hi, rest, hs⟩ | ⟨-, -, heq⟩ | ⟨hr, -, hrv, hrz⟩ | heq := step_writers h
  · obtain ⟨-, -, hres⟩ := sequencerStep_writes hs
    refine ⟨fun hset => ⟨hseq, ?_⟩, fun hv hv' => ?_, fun hinv hz => ?_⟩
    · obtain ⟨hi, -⟩ | ⟨-, -, hv, hz⟩ := hres
      · exact hi
      · simp [hv, hz] at hset
    · obtain ⟨-, hset⟩ | ⟨-, -, hkeep, -⟩ := hres
      · cases hset.symm.trans hv'
      · cases hv.symm.trans (hkeep.symm.trans hv')
    · have hnone := hinv.spec.noResult (hinv.spec.scanning hseq.1).1
      simp [hnone.2] at hz
  · obtain ⟨hw, hv, hz⟩ | ⟨hv, hz, -⟩ := exec_result hs
    · have hcause := executes_of_withdraws hi hw
      exact ⟨by simp [hv, hz], fun _ _ => hcause, fun _ _ _ => hcause⟩
    · simp +contextual [hv, hz]
  · rw [heq]
    simp +contextual
  · simp [hrv, hrz, hr]
  · rw [heq]
    simp +contextual

end Sys2Proof.Machine
end

section
/-!
PROOFS. The host port: no operation refuses, what a refused access lets pass, and reads and writes at the window's
slots (R62, R64, R65, R239).
-/

namespace Sys2Proof.Machine

/-! ### Only the port refuses -/

theorem execPushd_ne_refused (ch : Byte) (s : State) (r : Refusal) : execPushd ch s ≠ .refused r := by
  unfold execPushd
  split
  · nofun
  split
  · nofun
  · exact withValue_ne_refused nofun

theorem execPushg_ne_refused (ch : Byte) (s : State) (r : Refusal) : execPushg ch s ≠ .refused r := by
  unfold execPushg
  split
  · nofun
  split
  · nofun
  · exact withValue_ne_refused nofun

theorem execCompute_ne_refused (s : State) (r : Refusal) : execCompute s ≠ .refused r := by
  unfold execCompute
  split
  · exact withValue_ne_refused fun _ => withValue_ne_refused nofun
  · nofun

/-- Every command of the table has its meaning, so none is refused. -/
theorem exec_ne_refused (i : Instr) (s : State) (r : Refusal) : exec i s ≠ .refused r := by
  cases i with
  | nop | clear | sel idx => nofun
  | pushd ch => exact execPushd_ne_refused ch s r
  | pushg ch => exact execPushg_ne_refused ch s r
  | compute => exact execCompute_ne_refused s r

theorem dispatchCommand_ne_refused (v : Word) (s : State) (r : Refusal) : dispatchCommand v s ≠ .refused r := by
  unfold dispatchCommand
  split
  · nofun
  split
  · exact exec_ne_refused _ s r
  · nofun

/-- An admitted access is never refused (R62). -/
theorem hostAccess_ne_refused {a : Access} {s : State} (ha : accessRefusal s.cfg a = none) (r : Refusal) :
    hostAccess a s ≠ .refused r := by
  cases a with
  | read addr width burst =>
    rw [hostAccess_read ha]
    exact withValue_ne_refused nofun
  | write addr lanes burst =>
    rw [hostAccess_write ha]
    by_cases hslot : accessSlot s.cfg (.write addr lanes burst) = some .cmd
    · rw [hslot]
      exact dispatchCommand_ne_refused _ s r
    · rw [hostWrite_of_ne hslot]
      nofun

/-! ### What a refused access lets pass -/

/-- In an event taken past a stuck host the host makes no access, not even one that coincides with a reset. -/
theorem makesAccess_of_takeOther {es rest : List Event} {e : Event} (h : takeOther es = some (e, rest)) :
    makesAccess e = false := by
  induction es generalizing rest with
  | nil => cases h
  | cons x es ih =>
    cases x with
    | access a =>
      obtain ⟨p, hp, heq⟩ := Option.map_eq_some_iff.mp h
      cases heq
      exact ih hp
    | sequencer | reset _ | powerLoss => cases h; rfl

theorem takeOther_of_accesses {es : List Event} (h : ∀ e ∈ es, isAccess e = true) : takeOther es = none := by
  induction es with
  | nil => rfl
  | cons x es ih =>
    obtain ⟨hx, hes⟩ := List.forall_mem_cons.mp h
    cases x with
    | access a => simp [takeOther, ih hes]
    | sequencer | reset _ | powerLoss => cases hx

/-- The first event that is no host access is taken, and the accesses before it stay. -/
theorem takeOther_append {accs : List Event} {e : Event} (more : List Event) (h : ∀ x ∈ accs, isAccess x = true)
    (he : isAccess e = false) : takeOther (accs ++ e :: more) = some (withoutHost e, accs ++ more) := by
  induction accs with
  | nil =>
    cases e with
    | access a => cases he
    | sequencer | reset _ | powerLoss => rfl
  | cons x accs ih =>
    obtain ⟨hx, haccs⟩ := List.forall_mem_cons.mp h
    cases x with
    | access a => simp [takeOther, ih haccs]
    | sequencer | reset _ | powerLoss => cases hx

/-- An event in which the host makes no access gives the host no value. -/
theorem runEvent_answers {e : Event} {s t : State} (he : makesAccess e = false) (h : runEvent e s = .next t) :
    t.answers = s.answers := by
  cases e with
  | access a => cases he
  | sequencer => rw [(sequencerStep_writes h).1]
  | reset a =>
    cases a with
    | none => cases h; rfl
    | some a => cases he
  | powerLoss => cases h; rfl

/-- A refused access stays before the port through every step, and the host reads nothing (R62). -/
theorem step_behind_refused {s t : State} {a : Access} {rest : List Event} {r : Refusal}
    (hp : s.pending = .access a :: rest) (hr : accessRefusal s.cfg a = some r) (h : step s = .next t) :
    t.answers = s.answers ∧ ∃ rest', t.pending = .access a :: rest' := by
  obtain ⟨-, hs⟩ | ⟨e, left, hn, hs⟩ := step_cases h
  · rw [(sequencerStep_writes hs).1]
    exact ⟨rfl, rest, hp⟩
  · rw [hp, nextTurn_of_refused hr] at hn
    obtain ⟨-, hpend⟩ := Prod.mk.inj (runEvent_environment hs)
    have hanswers := runEvent_answers (makesAccess_of_takeOther hn) hs
    obtain ⟨p, -, heq⟩ := Option.map_eq_some_iff.mp hn
    cases heq
    exact ⟨hanswers, p.2, hpend⟩

/-- Settles O19: the window's aligned addresses are `BASE + off`; a refused access stays at the head of what is
pending, and no operation that an admitted access starts refuses. -/
theorem onlyAlignedWordsAdmitted : Obligations.OnlyAlignedWordsAdmitted := by
  refine ⟨fun c a => accessRefusal_eq_none.trans (and_congr_right' (and_congr_right' ?_)),
    fun s a rest hp => ⟨fun hr t hs => ?_, fun ha r => ?_⟩⟩
  · constructor
    · rintro ⟨hlo, hhi, h4⟩
      exact ⟨accessAddr a - c.base, h4, by omega, by omega⟩
    · rintro ⟨off, h4, hle, haddr⟩
      omega
  · obtain ⟨r, hr⟩ := Option.ne_none_iff_exists'.mp hr
    exact step_behind_refused hp hr hs
  · rw [step_access hp ha]
    exact hostAccess_ne_refused (s := { s with pending := rest }) ha r

/-- Settles O20: the turn behind a refused access is that of the first event that is no host's; where there is none,
the sequencer goes on in SCAN and the host is stuck in IDLE. -/
theorem refusedAccessStopsOnlyTheHost : Obligations.RefusedAccessStopsOnlyTheHost := by
  intro s a rest hp hr
  obtain ⟨r, hr⟩ := Option.ne_none_iff_exists'.mp hr
  have hturn : nextTurn s.cfg s.pending = takeOther (.access a :: rest) := hp ▸ nextTurn_of_refused hr
  refine ⟨fun hall => ?_, fun accs more e hrest haccs he => ?_⟩
  · have hnone : nextTurn s.cfg s.pending = none :=
      hturn.trans (takeOther_of_accesses (List.forall_mem_cons.mpr ⟨rfl, hall⟩))
    exact ⟨step_alone_busy hnone, fun hidle => ⟨r, step_of_stuckAt ⟨hnone, hidle, a, rest, hp, hr⟩⟩⟩
  · subst hrest
    exact step_of_turn (hturn.trans
      (takeOther_append (accs := .access a :: accs) more (List.forall_mem_cons.mpr ⟨rfl, haccs⟩) he))

/-! ### Reads and writes at the window's slots -/

/-- What a register reads depends on the block alone, not on the schedule or on what the host has read (R64). -/
theorem regRead_of_environment (s : State) (pending : List Event) (answers : List Word) (slot : Option Reg) :
    regRead { s with pending := pending, answers := answers } slot = regRead s slot := rfl

/-- A read of the window hands over the register's value (R64). -/
theorem step_readAt {s : State} {off : Nat} {v : Word} {rest : List Event} (hle : off ≤ 0x3C) (h4 : off % 4 = 0)
    (hv : regRead s (regAt off) = some v) (hp : s.pending = .access (readAt s.cfg off) :: rest) :
    step s = .next { s with pending := rest, answers := s.answers ++ [v] } :=
  calc step s = hostAccess (readAt s.cfg off) { s with pending := rest } := step_access hp (accessRefusal_readAt hle h4)
    _ = hostRead (regAt off) { s with pending := rest } := hostAccess_readAt hle h4
    _ = .next { s with pending := rest, answers := s.answers ++ [v] } :=
      hostRead_of_value ((regRead_of_environment s rest s.answers _).trans hv)

/-- Settles O22: the first read leaves the block as it was, so the second finds the same value. -/
theorem readsChangeNothing : Obligations.ReadsChangeNothing := by
  intro s off rest h h4 hle
  obtain ⟨v, hv⟩ := regRead_total h (regAt off)
  refine ⟨v, hv, step_readAt hle h4 hv, fun hp => ?_⟩
  have hsecond := step_readAt (s := { s with
    pending := .access (readAt s.cfg off) :: rest, answers := s.answers ++ [v] }) hle h4
    ((regRead_of_environment s _ _ _).trans hv) rfl
  rw [run_succ_of_next (step_readAt hle h4 hv hp), run_succ_of_next hsecond, run_zero, List.append_assoc]
  rfl

theorem regAt_eq_cmd {off : Nat} : regAt off = some .cmd ↔ off = 0 := by
  unfold regAt
  split <;> simp_all

/-- Settles O21: CMD is the slot at offset 0 and at no other. -/
theorem writesActOnlyOnCmd : Obligations.WritesActOnlyOnCmd := by
  refine fun s off v rest h4 hle hp => ⟨?_, fun hne => step_write_of_ne_cmd hle h4 (mt regAt_eq_cmd.mp hne) hp⟩
  rintro rfl
  exact step_cmdWrite hp

end Sys2Proof.Machine
end

section
/-!
PROOFS. The encoding: the decoder's answer opcode by opcode, its round trips with the encoder, R86's table row by row,
and the words that spell no command (R80 to R89).
-/

namespace Sys2Proof

/-! ### The decoder's answer for each opcode -/

/-- The answer for an assigned opcode: its instruction, unless a reserved bit of its format is set (R87). -/
def assigned (ok : Bool) (i : Instr) : Except DecodeReject Instr := if ok then .ok i else .error .reservedBitSet

theorem assigned_eq_ok {ok : Bool} {i j : Instr} : assigned ok j = .ok i ↔ ok = true ∧ j = i := by
  cases ok <;> simp [assigned]

theorem assigned_eq_reservedBitSet {ok : Bool} {i : Instr} : assigned ok i = .error .reservedBitSet ↔ ok = false := by
  cases ok <;> simp [assigned]

theorem assigned_ne_reservedOpcode {ok : Bool} {i : Instr} : assigned ok i ≠ .error .reservedOpcode := by
  cases ok <;> nofun

theorem decode_of_op0 {v : Word} (h : opField v = 0x0) : decode v = assigned (formatNOk v) .nop := by
  simp [decode, assigned, h]

theorem decode_of_op1 {v : Word} (h : opField v = 0x1) : decode v = assigned (formatNOk v) .clear := by
  simp [decode, assigned, h]

theorem decode_of_op2 {v : Word} (h : opField v = 0x2) : decode v = assigned (formatCOk v) (.pushd (chField v)) := by
  simp [decode, assigned, h]

theorem decode_of_op3 {v : Word} (h : opField v = 0x3) : decode v = assigned (formatCOk v) (.pushg (chField v)) := by
  simp [decode, assigned, h]

theorem decode_of_op4 {v : Word} (h : opField v = 0x4) : decode v = assigned (formatNOk v) .compute := by
  simp [decode, assigned, h]

theorem decode_of_op5 {v : Word} (h : opField v = 0x5) : decode v = assigned (formatIOk v) (.sel (idxField v)) := by
  simp [decode, assigned, h]

/-- The opcodes `0x6` to `0xF` are reserved (R89). -/
theorem decode_of_reservedOp {v : Word} (h : 6 ≤ (opField v).toNat) : decode v = .error .reservedOpcode := by
  have hne : ∀ op : BitVec 4, op.toNat < 6 → opField v ≠ op := by
    rintro op hop rfl
    omega
  have hgt : 5#4 < opField v := BitVec.lt_def.mpr h
  simp [decode, hgt, hne]

/-- The other opcodes are the six assigned ones (R86). -/
theorem assignedOp_cases {v : Word} (h : (opField v).toNat < 6) :
    opField v = 0x0 ∨ opField v = 0x1 ∨ opField v = 0x2 ∨ opField v = 0x3 ∨ opField v = 0x4 ∨ opField v = 0x5 := by
  bv_omega

/-- A word with an assigned opcode is the word of its instruction, if its reserved bits are 0. -/
theorem decode_of_assignedOp {v : Word} (h : (opField v).toNat < 6) :
    ∃ ok i, decode v = assigned ok i ∧ (ok = true → encode i = v) := by
  obtain hop | hop | hop | hop | hop | hop := assignedOp_cases h
  · exact ⟨_, _, decode_of_op0 hop, formatN_of_fields hop⟩
  · exact ⟨_, _, decode_of_op1 hop, formatN_of_fields hop⟩
  · exact ⟨_, _, decode_of_op2 hop, formatC_of_fields hop⟩
  · exact ⟨_, _, decode_of_op3 hop, formatC_of_fields hop⟩
  · exact ⟨_, _, decode_of_op4 hop, formatN_of_fields hop⟩
  · exact ⟨_, _, decode_of_op5 hop, formatI_of_fields hop⟩

/-! ### Round trips -/

theorem decode_encode (i : Instr) : decode (encode i) = .ok i := by
  cases i with
  | nop => exact (decode_of_op0 (opField_formatN _)).trans (assigned_eq_ok.mpr ⟨formatNOk_formatN _, rfl⟩)
  | clear => exact (decode_of_op1 (opField_formatN _)).trans (assigned_eq_ok.mpr ⟨formatNOk_formatN _, rfl⟩)
  | pushd ch =>
    exact (decode_of_op2 (opField_formatC ..)).trans
      (assigned_eq_ok.mpr ⟨formatCOk_formatC .., congrArg _ (chField_formatC ..)⟩)
  | pushg ch =>
    exact (decode_of_op3 (opField_formatC ..)).trans
      (assigned_eq_ok.mpr ⟨formatCOk_formatC .., congrArg _ (chField_formatC ..)⟩)
  | compute => exact (decode_of_op4 (opField_formatN _)).trans (assigned_eq_ok.mpr ⟨formatNOk_formatN _, rfl⟩)
  | sel idx =>
    exact (decode_of_op5 (opField_formatI ..)).trans
      (assigned_eq_ok.mpr ⟨formatIOk_formatI .., congrArg _ (idxField_formatI ..)⟩)

/-- Settles O1: a format's fields give back what was put into them, and its reserved bits are 0. -/
theorem decodeEncodeAgree : Obligations.DecodeEncodeAgree := fun i _ => decode_encode i

theorem encode_of_decode {v : Word} {i : Instr} (h : decode v = .ok i) : encode i = v := by
  obtain hlt | hge := Nat.lt_or_ge (opField v).toNat 6
  · obtain ⟨ok, j, hd, henc⟩ := decode_of_assignedOp hlt
    obtain ⟨hok, rfl⟩ := assigned_eq_ok.mp (hd ▸ h)
    exact henc hok
  · rw [decode_of_reservedOp hge] at h
    cases h

/-- Settles O2: a word whose reserved bits are 0 is what its fields make. -/
theorem encodeInvertsDecode : Obligations.EncodeInvertsDecode := fun _ _ => encode_of_decode

theorem decode_eq_ok {v : Word} {i : Instr} : decode v = .ok i ↔ encode i = v :=
  ⟨encode_of_decode, fun h => h ▸ decode_encode i⟩

/-! ### The opcode table -/

/-- A field that lies wholly under a mask is seen through it. -/
theorem field_of_masked {v m p : Word} {a n : Nat} (h : v &&& m = p) (hm : m.extractLsb' a n = BitVec.allOnes n) :
    v.extractLsb' a n = p.extractLsb' a n := by
  rw [← h, BitVec.extractLsb'_and, hm, BitVec.and_allOnes]

/-- The one word of format N with an opcode, by mask and match (R82, R86). -/
theorem formatN_eq_iff_mask {v p : Word} {op : BitVec 4} (hp : p = formatN op) :
    formatN op = v ↔ v &&& 0xFFFFFFFF = p := by
  rw [show v &&& 0xFFFFFFFF = v from BitVec.and_allOnes, hp, eq_comm]

/-- The words of format C with one opcode, by mask and match (R83, R86). -/
theorem formatC_eq_iff_mask {v p : Word} {ch : Byte} {op : BitVec 4} (hp : p = formatC 0 op) :
    formatC ch op = v ↔ v &&& 0xFFFF00FF = p ∧ ch = chField v := by
  constructor
  · rintro rfl
    refine ⟨?_, (chField_formatC ch op).symm⟩
    subst hp
    ext k hk
    interval_cases k <;> simp [formatC]
  · rintro ⟨hmask, rfl⟩
    have hop : opField v = op := by
      rw [← opField_formatC 0 op, ← hp]
      exact field_of_masked hmask (by decide)
    have hok : formatCOk v = formatCOk p := by
      rw [formatCOk, field_of_masked hmask (by decide), field_of_masked hmask (by decide), formatCOk]
    exact formatC_of_fields hop (hok.trans (hp ▸ formatCOk_formatC 0 op))

/-- The words of format I with one opcode, by mask and match (R84, R86). -/
theorem formatI_eq_iff_mask {v p : Word} {idx : Index} {op : BitVec 4} (hp : p = formatI 0 op) :
    formatI idx op = v ↔ v &&& 0x0000FFFF = p ∧ idx = idxField v := by
  constructor
  · rintro rfl
    refine ⟨?_, (idxField_formatI idx op).symm⟩
    subst hp
    ext k hk
    interval_cases k <;> simp [formatI]
  · rintro ⟨hmask, rfl⟩
    have hop : opField v = op := by
      rw [← opField_formatI 0 op, ← hp]
      exact field_of_masked hmask (by decide)
    have hok : formatIOk v = formatIOk p := by
      rw [formatIOk, field_of_masked hmask (by decide), formatIOk]
    exact formatI_of_fields hop (hok.trans (hp ▸ formatIOk_formatI 0 op))

/-- Every row's mask covers the opcode, so a covered word has the opcode of the row's match. -/
theorem opField_of_covers {v : Word} {r : OpcodeRow} (hr : r ∈ opcodeTable) (h : r.covers v = true) :
    opField v = opField r.pattern := by
  have hmask : ∀ r ∈ opcodeTable, r.mask.extractLsb' 0 4 = BitVec.allOnes 4 := by decide
  exact field_of_masked (beq_iff_eq.mp h) (hmask r hr)

/-- No two rows share an opcode. -/
theorem opcodeTable_opField_inj :
    ∀ r ∈ opcodeTable, ∀ r' ∈ opcodeTable, opField r.pattern = opField r'.pattern → r = r' := by decide

/-- Settles O3: a word decodes to a command exactly when it is the command's word, and the word's format says so by
mask and match; two rows that match one word have its opcode, and so are one row. -/
theorem opcodeTableDecodes : Obligations.OpcodeTableDecodes := by
  refine ⟨fun v => decode_eq_ok.trans (formatN_eq_iff_mask rfl), fun v => decode_eq_ok.trans (formatN_eq_iff_mask rfl),
    fun v ch => decode_eq_ok.trans (formatC_eq_iff_mask rfl), fun v ch => decode_eq_ok.trans (formatC_eq_iff_mask rfl),
    fun v => decode_eq_ok.trans (formatN_eq_iff_mask rfl), fun v idx => decode_eq_ok.trans (formatI_eq_iff_mask rfl),
    fun v r hr r' hr' h h' => ?_,
    decode_encode (.pushd 0x30), decode_encode (.pushd 0x31), decode_encode (.pushg 0x30), decode_encode (.pushg 0x31),
    decode_encode (.sel 3)⟩
  exact opcodeTable_opField_inj r hr r' hr' ((opField_of_covers hr h).symm.trans (opField_of_covers hr' h'))

/-! ### The words that spell no command -/

theorem decode_eq_reservedOpcode {v : Word} : decode v = .error .reservedOpcode ↔ 6 ≤ (opField v).toNat := by
  refine ⟨fun h => Nat.le_of_not_lt fun hlt => ?_, decode_of_reservedOp⟩
  obtain ⟨ok, i, hd, -⟩ := decode_of_assignedOp hlt
  exact assigned_ne_reservedOpcode (hd ▸ h)

theorem decode_eq_reservedBitSet {v : Word} :
    decode v = .error .reservedBitSet ↔
      ((opField v = 0 ∨ opField v = 1 ∨ opField v = 4) ∧ formatNOk v = false) ∨
      ((opField v = 2 ∨ opField v = 3) ∧ formatCOk v = false) ∨
      (opField v = 5 ∧ formatIOk v = false) := by
  obtain hlt | hge := Nat.lt_or_ge (opField v).toNat 6
  · obtain hop | hop | hop | hop | hop | hop := assignedOp_cases hlt
    · simp [decode_of_op0 hop, assigned_eq_reservedBitSet, hop]
    · simp [decode_of_op1 hop, assigned_eq_reservedBitSet, hop]
    · simp [decode_of_op2 hop, assigned_eq_reservedBitSet, hop]
    · simp [decode_of_op3 hop, assigned_eq_reservedBitSet, hop]
    · simp [decode_of_op4 hop, assigned_eq_reservedBitSet, hop]
    · simp [decode_of_op5 hop, assigned_eq_reservedBitSet, hop]
  · rw [decode_of_reservedOp hge]
    simp only [reduceCtorEq, Except.error.injEq, false_iff]
    bv_omega

theorem formatNOk_eq_false {v : Word} : formatNOk v = false ↔ v.extractLsb' 4 28 ≠ 0 := beq_eq_false_iff_ne

theorem formatCOk_eq_false {v : Word} :
    formatCOk v = false ↔ v.extractLsb' 16 16 ≠ 0 ∨ v.extractLsb' 4 4 ≠ 0 := by
  rw [formatCOk, Bool.and_eq_false_iff, beq_eq_false_iff_ne, beq_eq_false_iff_ne]

theorem formatIOk_eq_false {v : Word} : formatIOk v = false ↔ v.extractLsb' 4 12 ≠ 0 := beq_eq_false_iff_ne

/-- Settles O4: the two reasons opcode by opcode. -/
theorem illegalWordsRejectedByReason : Obligations.IllegalWordsRejectedByReason := by
  refine fun v => ⟨decode_eq_reservedOpcode, ?_⟩
  rw [decode_eq_reservedBitSet, formatNOk_eq_false, formatCOk_eq_false, formatIOk_eq_false]
  rfl

/-- Settles O5, by evaluating the decoder on the listed words. -/
theorem listedWordsDecode : Obligations.ListedWordsDecode := by
  unfold Obligations.ListedWordsDecode
  decide

end Sys2Proof

namespace Sys2Proof.Machine

/-! ### A command word at the port -/

/-- Settles O16: in IDLE the dispatched word is decoded and executed. -/
theorem stepRunsDecodedCommand : Obligations.StepRunsDecodedCommand :=
  fun s _ _ rest hidle hp hd =>
    (step_cmdWrite hp).trans (dispatchCommand_of_ok (s := { s with pending := rest }) hidle hd)

/-- Settles O17: the dispatch by the phase, and in IDLE by what the decoder answers. -/
theorem dispatchTestsBusyFirst : Obligations.DispatchTestsBusyFirst := by
  refine ⟨fun v s rest hscan hp => ?_, fun s v rest hidle hp => ⟨fun i hd => ?_, fun e hd => ?_⟩⟩
  · exact (step_cmdWrite hp).trans (dispatchCommand_of_scan (s := { s with pending := rest }) hscan)
  · exact stepRunsDecodedCommand s v i rest hidle hp hd
  · exact (step_cmdWrite hp).trans (dispatchCommand_of_error (s := { s with pending := rest }) hidle hd)

/-! ### The host's lines -/

/-- Settles O59: a command line's word decodes to the command, which O16 executes; `loadd` expands to command lines,
each with its one access. -/
theorem commandLineIsOneCmdWrite : Obligations.CommandLineIsOneCmdWrite := by
  refine ⟨fun c h i => rfl, fun s i rest hidle hp => ?_, fun c h cs => ?_⟩
  · exact stepRunsDecodedCommand s (encode i) i rest hidle hp (decode_encode i)
  · exact (List.filterMap_map ..).trans (congrFun List.filterMap_eq_map cs)

end Sys2Proof.Machine
end

section
/-!
PROOFS. The input commands: characters, what each push does, its frame, and the order of loading
(spec/40_input.md).
-/

namespace Sys2Proof.Machine

/-! ### Characters -/

theorem chr2bit_of_not_character {ch : Byte} (h0 : ch ≠ 0x30) (h1 : ch ≠ 0x31) : chr2bit ch = none := by
  rw [chr2bit, if_neg h0, if_neg h1]

/-- Settles O28: no third byte is a character, and the two characters are read back. -/
theorem charactersAreZeroAndOne : Obligations.CharactersAreZeroAndOne :=
  ⟨rfl, rfl, fun _ => chr2bit_of_not_character, rfl, rfl, chr2bit_bit2chr⟩

/-! ### What a push does -/

/-- A valid byte is the character of its bit; in a buffer with room the bit becomes the next one. -/
theorem execPushd_bit_appends {s : State} (b : Bit) (hw : Memory.wf s) (hroom : s.dlen < s.cfg.maxBits) :
    ∃ t, execPushd (bit2chr b) s = .next t ∧
      t = { clearResult s with data := s.data.set s.dlen (some b), dlen := s.dlen + 1 } ∧
      Cells.get t.data s.dlen = some b ∧ ∀ d, s.dataBits = some d → t.dataBits = some (d ++ [b]) := by
  obtain ⟨hdata, -⟩ := hw
  have hput : Cells.put s.data s.dlen b = some (s.data.set s.dlen (some b)) :=
    put_eq_some.mpr ⟨hdata ▸ hroom, rfl⟩
  exact ⟨_, execPushd_of_room (chr2bit_bit2chr b) hroom.ne hput, rfl, (get_put hput _).trans (if_pos rfl),
    fun _ hd => slice_put_end hd hput⟩

theorem execPushg_bit_appends {s : State} (b : Bit) (hw : Memory.wf s) (hroom : s.glen < s.cfg.maxBits) :
    ∃ t, execPushg (bit2chr b) s = .next t ∧
      t = { clearResult s with gen := s.gen.set s.glen (some b), glen := s.glen + 1 } ∧
      Cells.get t.gen s.glen = some b ∧ ∀ g, s.genBits = some g → t.genBits = some (g ++ [b]) := by
  obtain ⟨-, hgen, -⟩ := hw
  have hput : Cells.put s.gen s.glen b = some (s.gen.set s.glen (some b)) :=
    put_eq_some.mpr ⟨hgen ▸ hroom, rfl⟩
  exact ⟨_, execPushg_of_room (chr2bit_bit2chr b) hroom.ne hput, rfl, (get_put hput _).trans (if_pos rfl),
    fun _ hg => slice_put_end hg hput⟩

/-- Settles O32: one clause for an invalid byte, a full buffer and a buffer with room; while busy every word is lost
(O17). -/
theorem pushdAppendsToData : Obligations.PushdAppendsToData :=
  ⟨fun _ _ h0 h1 => execPushd_of_invalid (chr2bit_of_not_character h0 h1),
    fun _ b hfull => execPushd_of_full (chr2bit_bit2chr b) hfull,
    fun _ b hw hroom => execPushd_bit_appends b hw hroom,
    fun ch => dispatchTestsBusyFirst.1 (encode (.pushd ch))⟩

/-- Settles O33, as O32 for the generator. -/
theorem pushgAppendsToGenerator : Obligations.PushgAppendsToGenerator :=
  ⟨fun _ _ h0 h1 => execPushg_of_invalid (chr2bit_of_not_character h0 h1),
    fun _ b hfull => execPushg_of_full (chr2bit_bit2chr b) hfull,
    fun _ b hw hroom => execPushg_bit_appends b hw hroom,
    fun ch => dispatchTestsBusyFirst.1 (encode (.pushg ch))⟩

/-! ### The frame of a push -/

/-- A write at the old length leaves every other cell. -/
theorem get_put_of_frame {cells out : Cells} {k j : Nat} {b : Bit} (h : Cells.put cells k b = some out)
    (hj : j ≠ k ∨ k + 1 = k) : Cells.get out j = Cells.get cells j :=
  (get_put h j).trans (if_neg (by omega))

theorem execPushd_get {ch : Byte} {s t : State} (h : execPushd ch s = .next t) {j : Nat}
    (hj : j ≠ s.dlen ∨ t.dlen = s.dlen) : Cells.get t.data j = Cells.get s.data j := by
  obtain ⟨-, rfl⟩ | ⟨-, -, -, rfl⟩ | ⟨_, _, -, -, hput, rfl⟩ := execPushd_cases h
  · rfl
  · rfl
  · exact get_put_of_frame hput hj

theorem execPushg_get {ch : Byte} {s t : State} (h : execPushg ch s = .next t) {j : Nat}
    (hj : j ≠ s.glen ∨ t.glen = s.glen) : Cells.get t.gen j = Cells.get s.gen j := by
  obtain ⟨-, rfl⟩ | ⟨-, -, -, rfl⟩ | ⟨_, _, -, -, hput, rfl⟩ := execPushg_cases h
  · rfl
  · rfl
  · exact get_put_of_frame hput hj

/-- Settles O39: the frames of the two commands, and the one cell a push can write. -/
theorem pushFrame : Obligations.PushFrame := by
  refine ⟨fun ch s t h => ?_, fun ch s t h => ?_⟩
  · have hcells : ∀ j, j ≠ s.dlen ∨ t.dlen = s.dlen → Cells.get t.data j = Cells.get s.data j :=
      fun _ => execPushd_get h
    rw [execPushd_frame h]
    exact ⟨rfl, rfl, rfl, rfl, rfl, rfl, rfl, rfl, rfl, rfl, rfl, rfl, rfl, rfl, hcells⟩
  · have hcells : ∀ j, j ≠ s.glen ∨ t.glen = s.glen → Cells.get t.gen j = Cells.get s.gen j :=
      fun _ => execPushg_get h
    rw [execPushg_frame h]
    exact ⟨rfl, rfl, rfl, rfl, rfl, rfl, rfl, rfl, rfl, rfl, rfl, rfl, rfl, rfl, hcells⟩

/-! ### The order of loading -/

/-- The state with the result withdrawn and a data buffer written; `invch` and `dovf` say whether the push sets the
sticky flag. -/
def writeData (data : Cells) (dlen : Nat) (invch dovf : Bool) (s : State) : State :=
  { clearResult s with data := data, dlen := dlen, invch := s.invch || invch, dovf := s.dovf || dovf }

/-- The state with the result withdrawn and a generator buffer written; `invch` and `govf` say whether the push sets
the sticky flag. -/
def writeGen (gen : Cells) (glen : Nat) (invch govf : Bool) (s : State) : State :=
  { clearResult s with gen := gen, glen := glen, invch := s.invch || invch, govf := s.govf || govf }

/-- The two writes touch disjoint state apart from `INVCH`, which both can only set (R104). -/
theorem writeData_writeGen_comm (data gen : Cells) (dlen glen : Nat) (i i' dovf govf : Bool) (s : State) :
    writeData data dlen i dovf (writeGen gen glen i' govf s) =
      writeGen gen glen i' govf (writeData data dlen i dovf s) := by
  simp [writeData, writeGen, clearResult, Bool.or_right_comm]

/-- What PUSHD writes depends on the data and the capacity only (R104). -/
theorem execPushd_local {ch : Byte} {s t : State} (h : execPushd ch s = .next t) :
    ∃ data dlen invch dovf, ∀ s', s'.cfg = s.cfg → s'.data = s.data → s'.dlen = s.dlen →
      execPushd ch s' = .next (writeData data dlen invch dovf s') := by
  obtain ⟨hc, -⟩ | ⟨b, hc, hfull, -⟩ | ⟨b, cells, hc, hroom, hput, -⟩ := execPushd_cases h
  · refine ⟨s.data, s.dlen, true, false, fun s' _ hdata hdlen => ?_⟩
    simp [execPushd_of_invalid hc, writeData, ← hdata, ← hdlen]
  · refine ⟨s.data, s.dlen, false, true, fun s' hcfg hdata hdlen => ?_⟩
    rw [← hcfg, ← hdlen] at hfull
    simp [execPushd_of_full hc hfull, writeData, ← hdata, ← hdlen]
  · refine ⟨cells, s.dlen + 1, false, false, fun s' hcfg hdata hdlen => ?_⟩
    rw [← hcfg, ← hdlen] at hroom
    rw [← hdata, ← hdlen] at hput
    simp [execPushd_of_room hc hroom hput, writeData, hdlen]

/-- What PUSHG writes depends on the generator and the capacity only (R104). -/
theorem execPushg_local {ch : Byte} {s t : State} (h : execPushg ch s = .next t) :
    ∃ gen glen invch govf, ∀ s', s'.cfg = s.cfg → s'.gen = s.gen → s'.glen = s.glen →
      execPushg ch s' = .next (writeGen gen glen invch govf s') := by
  obtain ⟨hc, -⟩ | ⟨b, hc, hfull, -⟩ | ⟨b, cells, hc, hroom, hput, -⟩ := execPushg_cases h
  · refine ⟨s.gen, s.glen, true, false, fun s' _ hgen hglen => ?_⟩
    simp [execPushg_of_invalid hc, writeGen, ← hgen, ← hglen]
  · refine ⟨s.gen, s.glen, false, true, fun s' hcfg hgen hglen => ?_⟩
    rw [← hcfg, ← hglen] at hfull
    simp [execPushg_of_full hc hfull, writeGen, ← hgen, ← hglen]
  · refine ⟨cells, s.glen + 1, false, false, fun s' hcfg hgen hglen => ?_⟩
    rw [← hcfg, ← hglen] at hroom
    rw [← hgen, ← hglen] at hput
    simp [execPushg_of_room hc hroom hput, writeGen, hglen]

/-- A PUSHD that follows a PUSHG can go first (R104). -/
theorem execPushg_execPushd_swap {a b : Byte} {s u t : State} (hu : execPushg b s = .next u)
    (ht : execPushd a u = .next t) : ∃ v, execPushd a s = .next v ∧ execPushg b v = .next t := by
  obtain ⟨gen, glen, i, govf, hg⟩ := execPushg_local hu
  obtain ⟨data, dlen, i', dovf, hd⟩ := execPushd_local ht
  cases hu.symm.trans (hg s rfl rfl rfl)
  cases ht.symm.trans (hd _ rfl rfl rfl)
  refine ⟨_, hd s rfl rfl rfl, ?_⟩
  rw [writeData_writeGen_comm]
  exact hg _ rfl rfl rfl

theorem execAll_cons_eq_next {i : Instr} {is : List Instr} {s t : State} :
    execAll (i :: is) s = .next t ↔ ∃ u, exec i s = .next u ∧ execAll is u = .next t := by
  rw [execAll]
  cases exec i s <;> simp

theorem isPushd_iff {i : Instr} : isPushd i = true ↔ ∃ ch, i = .pushd ch := by
  cases i <;> simp [isPushd]

theorem isPushg_iff {i : Instr} : isPushg i = true ↔ ∃ ch, i = .pushg ch := by
  cases i <;> simp [isPushg]

/-- A PUSHG in front of PUSHDs can follow them (R104). -/
theorem execAll_pushg_past_pushds {b : Byte} {ds l : List Instr} (hds : ∀ i ∈ ds, isPushd i = true) {s t : State}
    (h : execAll (.pushg b :: (ds ++ l)) s = .next t) : execAll (ds ++ .pushg b :: l) s = .next t := by
  induction ds generalizing s with
  | nil => exact h
  | cons i ds ih =>
    rw [List.forall_mem_cons] at hds
    obtain ⟨a, rfl⟩ := isPushd_iff.mp hds.1
    obtain ⟨u, hu, h⟩ := execAll_cons_eq_next.mp h
    obtain ⟨w, hw, h⟩ := execAll_cons_eq_next.mp h
    obtain ⟨v, hv, hvw⟩ := execPushg_execPushd_swap hu hw
    exact execAll_cons_eq_next.mpr ⟨v, hv, ih hds.2 (execAll_cons_eq_next.mpr ⟨w, hvw, h⟩)⟩

/-- Pushes in any order come to the state of their PUSHDs followed by their PUSHGs (R104). -/
theorem execAll_sort_pushes {l : List Instr} (hl : ∀ i ∈ l, isPushd i = true ∨ isPushg i = true) {s t : State}
    (h : execAll l s = .next t) : execAll (l.filter isPushd ++ l.filter isPushg) s = .next t := by
  induction l generalizing s with
  | nil => exact h
  | cons i l ih =>
    obtain ⟨hi, hl⟩ := List.forall_mem_cons.mp hl
    obtain ⟨u, hu, h⟩ := execAll_cons_eq_next.mp h
    have hcons := execAll_cons_eq_next.mpr ⟨u, hu, ih hl h⟩
    obtain ⟨ch, rfl⟩ | ⟨ch, rfl⟩ := hi.imp isPushd_iff.mp isPushg_iff.mp
    · exact hcons
    · exact execAll_pushg_past_pushds (fun _ hj => (List.mem_filter.mp hj).2) hcons

/-- The buffers have `MAX_BITS` cells and the inputs lie within them (R32, R45). -/
def State.InputsFit (s : State) : Prop := Memory.wf s ∧ s.dlen ≤ s.cfg.maxBits ∧ s.glen ≤ s.cfg.maxBits

/-- A valid character at a length below the capacity finds its cell. -/
theorem execPushd_of_inputsFit {s : State} (h : s.InputsFit) (ch : Byte) :
    ∃ t, execPushd ch s = .next t ∧ t.InputsFit := by
  obtain ⟨hw, hdl, hgl⟩ := h
  cases hc : chr2bit ch with
  | none => exact ⟨_, execPushd_of_invalid hc, hw, hdl, hgl⟩
  | some b =>
    by_cases hfull : s.dlen = s.cfg.maxBits
    · exact ⟨_, execPushd_of_full hc hfull, hw, hdl, hgl⟩
    · have hroom : s.dlen < s.cfg.maxBits := Nat.lt_of_le_of_ne hdl hfull
      have he := execPushd_of_room hc hfull (put_eq_some.mpr ⟨hw.1.symm ▸ hroom, rfl⟩)
      exact ⟨_, he, exec_keeps_memory_wf (i := .pushd ch) hw he, hroom, hgl⟩

theorem execPushg_of_inputsFit {s : State} (h : s.InputsFit) (ch : Byte) :
    ∃ t, execPushg ch s = .next t ∧ t.InputsFit := by
  obtain ⟨hw, hdl, hgl⟩ := h
  cases hc : chr2bit ch with
  | none => exact ⟨_, execPushg_of_invalid hc, hw, hdl, hgl⟩
  | some b =>
    by_cases hfull : s.glen = s.cfg.maxBits
    · exact ⟨_, execPushg_of_full hc hfull, hw, hdl, hgl⟩
    · have hroom : s.glen < s.cfg.maxBits := Nat.lt_of_le_of_ne hgl hfull
      have he := execPushg_of_room hc hfull (put_eq_some.mpr ⟨hw.2.1.symm ▸ hroom, rfl⟩)
      exact ⟨_, he, exec_keeps_memory_wf (i := .pushg ch) hw he, hdl, hroom⟩

/-- Pushes always complete where the inputs fit. -/
theorem execAll_pushes_total {l : List Instr} (hl : ∀ i ∈ l, isPushd i = true ∨ isPushg i = true) {s : State}
    (h : s.InputsFit) : ∃ t, execAll l s = .next t := by
  induction l generalizing s with
  | nil => exact ⟨s, rfl⟩
  | cons i l ih =>
    obtain ⟨hi, hl⟩ := List.forall_mem_cons.mp hl
    obtain ⟨u, hu, hfit⟩ : ∃ u, exec i s = .next u ∧ u.InputsFit := by
      obtain ⟨ch, rfl⟩ | ⟨ch, rfl⟩ := hi.imp isPushd_iff.mp isPushg_iff.mp
      · exact execPushd_of_inputsFit h ch
      · exact execPushg_of_inputsFit h ch
    exact (ih hl hfit).imp fun t ht => execAll_cons_eq_next.mpr ⟨u, hu, ht⟩

/-- Settles O34: both lists complete, and sorted, PUSHDs first, they are one list. -/
theorem loadingOrderIsIrrelevant : Obligations.LoadingOrderIsIrrelevant := by
  intro s l l' hw hdl hgl hl hl' hd hg
  obtain ⟨t, ht⟩ := execAll_pushes_total hl ⟨hw, hdl, hgl⟩
  obtain ⟨t', ht'⟩ := execAll_pushes_total hl' ⟨hw, hdl, hgl⟩
  have hsorted := execAll_sort_pushes hl ht
  rw [hd, hg, execAll_sort_pushes hl' ht'] at hsorted
  cases hsorted
  exact ⟨t, ht, ht'⟩

end Sys2Proof.Machine
end

section
/-!
PROOFS. The division as a function: length and linearity of the remainder, what the scan leaves, leading zeros, and the
division of a frame (R120 to R124, R130 to R132).
-/

namespace Sys2Proof.Machine

/-! ### The XOR engine, and the length of the remainder -/

/-- Settles O48: position by position from the engine's definition, and the two lead bits from its two laws. -/
theorem xorEngineIsBitwise : Obligations.XorEngineIsBitwise := by
  intro w g lead h
  refine ⟨by simp [h], fun j wj gj hw hg => ?_, xeng_true w g, xeng_false h⟩
  simp [xeng, List.getElem?_zipWith, hw, hg]

/-- The scan of a message keeps the length of the augmented message. -/
theorem length_scanUpTo_augment {d g : Bitstring} (hg : 1 ≤ g.length) :
    (scanUpTo g (augment d g) d.length).length = d.length + (g.length - 1) := by
  rw [length_scanUpTo (by rw [length_augment]; omega), length_augment]

theorem length_crc {d g : Bitstring} (hg : 1 ≤ g.length) : (crc d g).length = g.length - 1 := by
  simp [crc, length_scanUpTo_augment hg]

/-- Settles O49: the remainder is cut out of a buffer of `n + m - 1` positions. -/
theorem remainderLength : Obligations.RemainderLength := fun _ _ _ hg => length_crc hg

/-- The remainder is everything behind the scanned positions (R124). -/
theorem crc_eq_drop {d g : Bitstring} (hg : 1 ≤ g.length) :
    crc d g = (scanUpTo g (augment d g) d.length).drop d.length :=
  List.take_of_length_le (by simp [length_scanUpTo_augment hg])

/-! ### Linearity -/

theorem augment_xor {d₁ d₂ g : Bitstring} (h : d₁.length = d₂.length) :
    augment (List.zipWith xor d₁ d₂) g = List.zipWith xor (augment d₁ g) (augment d₂ g) := by
  simp [augment, List.zipWith_append h]

/-- Settles O52: augmenting, scanning and cutting out are linear one by one. -/
theorem remainderIsLinear : Obligations.RemainderIsLinear := by
  intro d₁ d₂ g h _ hg
  have hlen : (List.zipWith xor d₁ d₂).length = d₁.length := by simp [h]
  have hscan := scanUpTo_xor (g := g) (a := augment d₁ g) (b := augment d₂ g) (k := d₁.length) (by simp [h])
    (by rw [length_augment]; omega)
  rw [crc, crc, crc, hlen, augment_xor h, hscan, ← h, List.drop_zipWith, List.take_zipWith]

/-! ### What the scan leaves -/

/-- A generator of zeros leaves every buffer (R131). -/
theorem scanUpTo_zero_generator {m k : Nat} {a : Bitstring} (h : k + m ≤ a.length + 1) :
    scanUpTo (List.replicate m false) a k = a := by
  induction k with
  | zero => rfl
  | succ k ih =>
    rw [scanUpTo, ih (by omega)]
    apply List.ext_getElem?
    intro j
    rw [getElem?_scanAt (by simp; omega)]
    split <;> simp

/-- A generator whose first bit is 1 clears each position that the scan has passed. -/
theorem getD_scanUpTo_of_lead {g a : Bitstring} {k j : Nat} (h1 : g.head? = some true)
    (h : k + g.length ≤ a.length + 1) (hj : j < k) : (scanUpTo g a k).getD j false = false := by
  obtain ⟨g, rfl⟩ := List.head?_eq_some_iff.mp h1
  simp only [List.length_cons] at h
  induction k with
  | zero => omega
  | succ k ih =>
    have hlen := length_scanUpTo (g := true :: g) (a := a) (k := k) (by simp; omega)
    rw [scanUpTo, List.getD, getElem?_scanAt (by simp; omega)]
    obtain hlt | rfl := Nat.lt_succ_iff_lt_or_eq.mp hj
    · rw [if_neg (by omega)]
      exact ih hlt (by omega)
    · rw [if_pos (by simp), List.getD, List.getElem?_eq_getElem (by omega)]
      simp

/-- Under such a generator the scan of `k` positions leaves `k` zeros (R130 (c)). -/
theorem take_scanUpTo_of_lead {g a : Bitstring} {k : Nat} (h1 : g.head? = some true)
    (h : k + g.length ≤ a.length + 1) : (scanUpTo g a k).take k = List.replicate k false := by
  have hg : 1 ≤ g.length := List.length_pos_of_mem (List.mem_of_mem_head? h1)
  have hlen := length_scanUpTo h
  refine List.eq_replicate_iff.mpr ⟨by simp; omega, fun b hb => ?_⟩
  obtain ⟨j, hj, rfl⟩ := List.mem_iff_getElem.mp hb
  simp only [List.length_take] at hj
  rw [List.getElem_take, ← getD_scanUpTo_of_lead (j := j) h1 h (by omega), List.getD,
    List.getElem?_eq_getElem (by omega)]
  rfl

/-! ### Leading zeros -/

/-- One iteration behind a leading bit is the iteration without it. -/
theorem scanAt_cons (g : Bitstring) (i : Nat) (b : Bit) (a : Bitstring) :
    scanAt g (i + 1) (b :: a) = b :: scanAt g i a := by
  simp [scanAt, Nat.add_right_comm]

/-- A leading zero adds an iteration that changes nothing (R131). -/
theorem scanUpTo_cons_false {g a : Bitstring} {k : Nat} (h : g.length ≤ a.length + 1) :
    scanUpTo g (false :: a) (k + 1) = false :: scanUpTo g a k := by
  induction k with
  | zero => exact scanAt_of_lead_false (by simpa [scanUpTo] using h) rfl
  | succ k ih => rw [scanUpTo, ih, scanAt_cons, scanUpTo]

theorem crc_cons_false {d g : Bitstring} (hd : 1 ≤ d.length) : crc (false :: d) g = crc d g := by
  have haug : augment (false :: d) g = false :: augment d g := rfl
  have hscan := scanUpTo_cons_false (g := g) (a := augment d g) (k := d.length) (by rw [length_augment]; omega)
  rw [crc, haug, List.length_cons, hscan, List.drop_succ_cons, ← crc]

theorem crc_zero_generator {d : Bitstring} {m : Nat} (hm : 1 ≤ m) :
    crc d (List.replicate m false) = List.replicate (m - 1) false := by
  have hscan := scanUpTo_zero_generator (m := m) (k := d.length) (a := augment d (List.replicate m false))
    (by simp; omega)
  rw [crc, hscan]
  simp [augment]

/-- Settles O53: the scan under zeros changes nothing, the example is evaluated, and a leading zero costs an iteration
with lead 0. -/
theorem generatorsAreNotNormalised : Obligations.GeneratorsAreNotNormalised :=
  ⟨fun _ _ _ hm => crc_zero_generator hm, rfl, fun _ _ hd _ => crc_cons_false hd⟩

/-! ### One-bit generators -/

theorem crc_one_bit (d : Bitstring) (b : Bit) : crc d [b] = [] :=
  List.eq_nil_of_length_eq_zero (length_crc (Nat.le_refl 1))

theorem scanUpTo_one_bit (d : Bitstring) (b : Bit) :
    scanUpTo [b] (augment d [b]) d.length = if b then List.replicate d.length false else d := by
  have haug : augment d [b] = d := List.append_nil d
  rw [haug]
  cases b with
  | false => exact scanUpTo_zero_generator (m := 1) (Nat.le_refl _)
  | true =>
    have hzeros := take_scanUpTo_of_lead (g := [true]) (a := d) (k := d.length) rfl (Nat.le_refl _)
    rwa [List.take_of_length_le (length_scanUpTo (Nat.le_refl _)).le] at hzeros

/-- Settles O54: the remainder has no bit, so the finish step latches none and finds no 1 in it. -/
theorem oneBitGeneratorGivesEmptyRemainder : Obligations.OneBitGeneratorGivesEmptyRemainder := by
  refine ⟨fun d b _ => ⟨crc_one_bit d b, scanUpTo_one_bit d b⟩, fun s h hp hi hg1 => ?_⟩
  obtain ⟨d, g, rem, -, -, -, -, hlen, hs⟩ := finishStep_spec h hp hi
  have hrlen : s.glen - 1 = 0 := by omega
  have hcrc : crc d g = [] := List.eq_nil_of_length_eq_zero (hlen.trans hrlen)
  rw [hcrc, hrlen] at hs
  exact ⟨_, (sequencerStep_of_eq hp hi).trans hs, rfl, rfl, rfl, rfl⟩

/-! ### The division of a frame -/

theorem zipWith_xor_self (r : Bitstring) : List.zipWith xor r r = List.replicate r.length false := by
  simp [List.zipWith_self, List.map_const']

theorem zipWith_xor_zeros (r : Bitstring) : List.zipWith xor r (List.replicate r.length false) = r := by
  induction r with
  | nil => rfl
  | cons b r ih => simp [List.replicate_succ, ih]

/-- Leading zeros are scanned without a change, whatever follows them. -/
theorem scanUpTo_zeros_append {g r : Bitstring} {n : Nat} (h : g.length ≤ r.length + 1) :
    scanUpTo g (List.replicate n false ++ r) n = List.replicate n false ++ r := by
  induction n with
  | zero => rfl
  | succ n ih =>
    rw [List.replicate_succ, List.cons_append, scanUpTo_cons_false (by simp; omega), ih]

/-- After the scan of a frame's data the last positions hold the remainder twice over, which is 0: the frame is the
augmented message XOR the remainder in its last positions, and the scan is linear. -/
theorem drop_scanUpTo_frame {d g : Bitstring} (hg : 1 ≤ g.length) :
    (scanUpTo g (d ++ crc d g) d.length).drop d.length = List.replicate (g.length - 1) false := by
  have hcl := length_crc (d := d) hg
  have hsplit : d ++ crc d g = List.zipWith xor (augment d g) (List.replicate d.length false ++ crc d g) := by
    rw [augment, List.zipWith_append (by simp), zipWith_xor_zeros, ← hcl, List.zipWith_comm_of_comm Bool.xor_comm,
      zipWith_xor_zeros]
  rw [hsplit, scanUpTo_xor (by simp [hcl]) (by rw [length_augment]; omega), scanUpTo_zeros_append (by omega),
    List.drop_zipWith, ← crc_eq_drop hg, List.drop_left' (by simp), zipWith_xor_self, hcl]

/-- Settles O51: the scan of the data leaves only zeros ahead, and the scan goes on over them without a change. -/
theorem frameDividesToZero : Obligations.FrameDividesToZero := by
  intro d g _ hg
  have hcl := length_crc (d := d) hg
  have hscan : scanUpTo g (augment (d ++ crc d g) g) d.length =
      scanUpTo g (d ++ crc d g) d.length ++ List.replicate (g.length - 1) false :=
    scanUpTo_append hg (by simp; omega)
  have hdrop : (scanUpTo g (augment (d ++ crc d g) g) d.length).drop d.length =
      List.replicate (g.length - 1 + (g.length - 1)) false := by
    rw [hscan, List.drop_append_of_le_length (by rw [length_scanUpTo (by simp; omega)]; simp),
      drop_scanUpTo_frame hg, List.replicate_append_replicate]
  have hrest : scanUpTo g (augment (d ++ crc d g) g) (d.length + (g.length - 1)) =
      scanUpTo g (augment (d ++ crc d g) g) d.length := by
    refine scanUpTo_of_zeros (fun j hj => ?_) (by simp; omega)
    rw [List.getD, ← List.getElem?_drop, hdrop, List.getElem?_replicate, if_pos (by omega)]
    rfl
  rw [crc, List.length_append, hcl, hrest, ← List.drop_drop, hdrop, List.drop_replicate, List.take_replicate]
  congr 1
  omega

end Sys2Proof.Machine
end

section
/-!
PROOFS. The division is the division of polynomials over GF(2): bitstrings as polynomials, what one iteration does to
the polynomial, and R130 (c) with R15.
-/

namespace Sys2Proof.Machine

open Polynomial

/-- The polynomial of a bitstring: position 0 is the highest power (R15). -/
noncomputable def toPoly (s : Bitstring) : (ZMod 2)[X] :=
  ∑ i ∈ Finset.range s.length, if s.getD i false then X ^ (s.length - 1 - i) else 0

/-! ### Bitstrings as polynomials -/

@[simp] theorem toPoly_nil : toPoly [] = 0 := rfl

/-- The first bit stands for the highest power. -/
theorem toPoly_cons (b : Bit) (s : Bitstring) : toPoly (b :: s) = (if b then X ^ s.length else 0) + toPoly s := by
  rw [toPoly, List.length_cons, Finset.sum_range_succ', add_comm]
  congr 1
  refine Finset.sum_congr rfl fun i _ => ?_
  rw [List.getD_cons_succ, show s.length + 1 - 1 - (i + 1) = s.length - 1 - i by omega]

theorem toPoly_append (s t : Bitstring) : toPoly (s ++ t) = toPoly s * X ^ t.length + toPoly t := by
  induction s with
  | nil => simp
  | cons b s ih =>
    rw [List.cons_append, toPoly_cons, toPoly_cons, ih, List.length_append, pow_add]
    cases b
    · simp
    · simp only [if_true]; ring

@[simp] theorem toPoly_zeros (n : Nat) : toPoly (List.replicate n false) = 0 := by
  induction n with
  | zero => rfl
  | succ n ih => rw [List.replicate_succ, toPoly_cons, ih]; simp

/-- XOR of two bits is addition over GF(2). -/
theorem ite_xor (b c : Bit) (p : (ZMod 2)[X]) :
    (if xor b c then p else 0) = (if b then p else 0) + if c then p else 0 := by
  cases b <;> cases c <;> simp [CharTwo.add_self_eq_zero]

/-- XOR of two bitstrings is addition of their polynomials. -/
theorem toPoly_xor {s t : Bitstring} (h : s.length = t.length) :
    toPoly (List.zipWith xor s t) = toPoly s + toPoly t := by
  induction s generalizing t with
  | nil =>
    rw [List.eq_nil_of_length_eq_zero h.symm]
    simp
  | cons b s ih =>
    cases t with
    | nil => cases h
    | cons c t =>
      have hst : s.length = t.length := Nat.succ.inj h
      rw [List.zipWith_cons_cons, toPoly_cons, toPoly_cons, toPoly_cons, ih hst, List.length_zipWith, hst, min_self,
        ite_xor, add_add_add_comm]

theorem degree_toPoly_lt (s : Bitstring) : (toPoly s).degree < s.length := by
  induction s with
  | nil => simp
  | cons b s ih =>
    rw [toPoly_cons, List.length_cons]
    refine (degree_add_le _ _).trans_lt (max_lt ?_ (ih.trans (by exact_mod_cast Nat.lt_succ_self _)))
    cases b
    · simp
    · simp only [if_true, degree_X_pow]
      exact_mod_cast Nat.lt_succ_self _

/-- A bitstring whose first bit is 1 is a monic polynomial of its last position's degree. -/
theorem monic_toPoly_cons (s : Bitstring) : (toPoly (true :: s)).Monic := by
  rw [toPoly_cons, if_pos rfl]
  exact monic_X_pow_add (degree_toPoly_lt s)

theorem degree_toPoly_cons (s : Bitstring) : (toPoly (true :: s)).degree = s.length := by
  have hlt : (toPoly s).degree < (X ^ s.length : (ZMod 2)[X]).degree := by
    rw [degree_X_pow]; exact degree_toPoly_lt s
  rw [toPoly_cons, if_pos rfl, degree_add_eq_left_of_degree_lt hlt, degree_X_pow]

/-! ### The scan as polynomial division -/

/-- Augmenting multiplies by `x^(m-1)` (R122). -/
theorem toPoly_augment (d g : Bitstring) : toPoly (augment d g) = toPoly d * X ^ (g.length - 1) := by
  rw [augment, toPoly_append, toPoly_zeros, add_zero, List.length_replicate]

/-- Under lead 1 an iteration adds the generator's polynomial, shifted to its window (R123). -/
theorem toPoly_scanAt_of_lead {g a : Bitstring} {i : Nat} (h : i + g.length ≤ a.length)
    (hl : a.getD i false = true) :
    toPoly (scanAt g i a) = toPoly a + toPoly g * X ^ (a.drop (i + g.length)).length := by
  have hw : ((a.drop i).take g.length).length = g.length := by simp; omega
  have hsplit : toPoly a =
      toPoly (a.take i ++ (a.drop i).take g.length ++ a.drop (i + g.length)) := by
    rw [List.append_assoc, ← List.drop_drop, List.take_append_drop, List.take_append_drop]
  rw [hsplit, scanAt, hl, xeng_true]
  simp only [toPoly_append, toPoly_xor hw, List.length_zipWith, hw, min_self]
  ring

/-- An iteration changes the buffer by a multiple of the generator's polynomial. -/
theorem toPoly_dvd_scanAt_sub {g a : Bitstring} {i : Nat} (h : i + g.length ≤ a.length) :
    toPoly g ∣ toPoly (scanAt g i a) - toPoly a := by
  cases hl : a.getD i false with
  | false => rw [scanAt_of_lead_false h hl, sub_self]; exact dvd_zero _
  | true => rw [toPoly_scanAt_of_lead h hl, add_sub_cancel_left]; exact dvd_mul_right _ _

/-- The scan changes the buffer by a multiple of the generator's polynomial. -/
theorem toPoly_dvd_scanUpTo_sub {g a : Bitstring} {k : Nat} (h : k + g.length ≤ a.length + 1) :
    toPoly g ∣ toPoly (scanUpTo g a k) - toPoly a := by
  induction k with
  | zero => rw [scanUpTo, sub_self]; exact dvd_zero _
  | succ k ih =>
    have hstep := toPoly_dvd_scanAt_sub (g := g) (a := scanUpTo g a k) (i := k)
      (by rw [length_scanUpTo (by omega)]; omega)
    rw [scanUpTo, ← sub_add_sub_cancel _ (toPoly (scanUpTo g a k))]
    exact dvd_add hstep (ih (by omega))

/-- Under a generator whose first bit is 1 the scan leaves zeros and the remainder (R124, R130 (c)). -/
theorem scanUpTo_augment_of_lead {d g : Bitstring} (h1 : g.head? = some true) :
    scanUpTo g (augment d g) d.length = List.replicate d.length false ++ crc d g := by
  have hg : 1 ≤ g.length := List.length_pos_of_mem (List.mem_of_mem_head? h1)
  rw [crc_eq_drop hg, ← take_scanUpTo_of_lead (a := augment d g) h1 (by rw [length_augment]; omega),
    List.take_append_drop]

/-- The remainder's polynomial: congruent to the augmented message by the scan, and of lower degree than the
generator. -/
theorem toPoly_crc {d g : Bitstring} (h1 : g.head? = some true) :
    toPoly (crc d g) = (toPoly d * X ^ (g.length - 1)) %ₘ toPoly g := by
  obtain ⟨g', hg'⟩ := List.head?_eq_some_iff.mp h1
  have hg : 1 ≤ g.length := by rw [hg', List.length_cons]; omega
  have hmonic : (toPoly g).Monic := hg' ▸ monic_toPoly_cons g'
  have hdeg : (toPoly (crc d g)).degree < (toPoly g).degree := by
    have hlt := degree_toPoly_lt (crc d g)
    rwa [length_crc hg, hg', List.length_cons, Nat.add_sub_cancel, ← degree_toPoly_cons, ← hg'] at hlt
  have hdvd := toPoly_dvd_scanUpTo_sub (g := g) (a := augment d g) (k := d.length) (by rw [length_augment]; omega)
  rw [scanUpTo_augment_of_lead h1, toPoly_append, toPoly_zeros, zero_mul, zero_add, toPoly_augment] at hdvd
  rw [← modByMonic_eq_of_dvd_sub hmonic hdvd, (modByMonic_eq_self_iff hmonic).mpr hdeg]

/-- Settles O50: the scan stays congruent modulo the generator's polynomial and clears the first `n` positions. -/
theorem remainderIsPolynomialRemainder : Obligations.RemainderIsPolynomialRemainder := by
  intro d g _ h1
  have hg : 1 ≤ g.length := List.length_pos_of_mem (List.mem_of_mem_head? h1)
  exact ⟨toPoly_crc h1, take_scanUpTo_of_lead h1 (by rw [length_augment]; omega)⟩

end Sys2Proof.Machine
end

section
/-!
PROOFS. COMPUTE and the two sequencer steps: validation, the start of the scan, the frame of COMPUTE, and what each
internal step does (R125 to R128).
-/

namespace Sys2Proof.Machine

/-! ### Validation (R125, R208) -/

theorem validate_of_invch {s : State} (h : s.invch = true) : validate s = .invalidCharacter := if_pos h

theorem validate_of_empty {s : State} (hi : s.invch = false) (h : s.dlen = 0 ∨ s.glen = 0) :
    validate s = .emptyInput := by
  rw [validate, if_neg (by simp [hi]), if_pos h]

theorem validate_of_tooLong {s : State} (hi : s.invch = false) (hd : 1 ≤ s.dlen) (hg : 1 ≤ s.glen)
    (h : s.dovf = true ∨ s.govf = true ∨ s.cfg.maxBits < s.dlen + s.glen - 1) : validate s = .inputTooLong := by
  rw [validate, if_neg (by simp [hi]), if_neg (by omega), if_pos h]

/-- A rejected COMPUTE withdraws the result and records validation's error (R126). -/
theorem execCompute_of_error {s : State} {e : ErrCode} (h : validate s = e) (he : e ≠ .none) :
    execCompute s = .next (raiseError e (clearResult s)) := by
  subst h
  exact execCompute_of_rejected he

/-! ### COMPUTE -/

/-- Where validation succeeds, the augmented message fits into WORK and the scan starts (R126). -/
theorem execCompute_of_accepted {s : State} {d : Bitstring} (hw : Memory.wf s) (hd : s.dataBits = some d)
    (hv : validate s = .none) :
    ∃ work, execCompute s = .next { clearResult s with errcode := .none, work := work, scanI := 0, phase := .scan } ∧
      work.length = s.cfg.maxBits ∧
      Cells.slice work 0 (s.dlen + s.glen - 1) = some (d ++ List.replicate (s.glen - 1) false) ∧
      ∀ j, s.dlen + s.glen - 1 ≤ j → Cells.get work j = Cells.get s.work j := by
  obtain ⟨-, -, hwork, -⟩ := hw
  obtain ⟨-, -, hg1, -, -, hfit⟩ := validate_eq_none.mp hv
  have hlen : (d ++ List.replicate (s.glen - 1) false).length = s.dlen + s.glen - 1 := by
    rw [List.length_append, length_of_slice hd, List.length_replicate]; omega
  obtain ⟨work, hput⟩ := putSlice_of_fits (cells := s.work) (i := 0)
    (bs := d ++ List.replicate (s.glen - 1) false) (by omega)
  obtain ⟨hsize, hget⟩ := putSlice_spec hput
  refine ⟨work, execCompute_of_valid hv hd hput, hsize.trans hwork, hlen ▸ slice_putSlice hput, fun j hj => ?_⟩
  rw [hget, if_neg (by omega)]

/-- Settles O35: one clause for each error of validation, the accepted case, and the busy test (O17). -/
theorem computeValidatesAndStarts : Obligations.ComputeValidatesAndStarts := by
  refine ⟨fun s hi => ?_, fun s hi h => ?_, fun s hi hd hg h => ?_, fun s d hw hd hi hd1 hg1 hdo hgo hfit => ?_,
    dispatchTestsBusyFirst.1 _⟩
  · exact execCompute_of_error (validate_of_invch hi) nofun
  · exact execCompute_of_error (validate_of_empty hi h) nofun
  · exact execCompute_of_error (validate_of_tooLong hi hd hg h) nofun
  · exact execCompute_of_accepted hw hd (validate_eq_none.mpr ⟨hi, hd1, hg1, hdo, hgo, hfit⟩)

/-- Settles O40: the two outcomes for WORK and the scan, and COMPUTE's frame for everything else. -/
theorem computeFrame : Obligations.ComputeFrame := by
  intro s t h
  have hscan : (∀ j, s.dlen + (s.glen - 1) ≤ j → Cells.get t.work j = Cells.get s.work j) ∧
      (t.errcode ≠ .none → t.work = s.work ∧ t.scanI = s.scanI ∧ t.phase = s.phase) := by
    obtain ⟨-, rfl⟩ | ⟨d, work, -, hd, hput, rfl⟩ := execCompute_cases h
    · exact ⟨fun _ _ => rfl, fun _ => ⟨rfl, rfl, rfl⟩⟩
    · refine ⟨fun j hj => ?_, fun hne => absurd rfl hne⟩
      rw [(putSlice_spec hput).2, if_neg]
      rw [List.length_append, length_of_slice hd, List.length_replicate]
      omega
  rw [execCompute_frame h]
  exact ⟨rfl, rfl, rfl, rfl, rfl, rfl, rfl, rfl, rfl, rfl, rfl, rfl, rfl, rfl, hscan⟩

/-! ### The internal steps -/

/-- No register shows the working buffer or the scan position (R46). -/
theorem regRead_of_scan_progress (s : State) (work : Cells) (i : Nat) (slot : Option Reg) :
    regRead { s with work := work, scanI := i } slot = regRead s slot := rfl

/-- The engine's output by the lead bit (R121). -/
theorem xeng_eq_ite {w g : Bitstring} (h : w.length = g.length) (lead : Bit) :
    xeng w g lead = if lead then List.zipWith xor w g else w := by
  cases lead with
  | true => exact xeng_true w g
  | false => exact xeng_false h

/-- Settles O42: the scan step writes the XOR engine's output over the window and nothing outside it. -/
theorem scanStepXorsWindow : Obligations.ScanStepXorsWindow := by
  refine ⟨fun _ => sequencerStep_of_idle, fun s h hp hi => ?_⟩
  obtain ⟨-, -, -, hg1, hfit, -⟩ := h.spec.scanning hp
  obtain ⟨t, ht⟩ := sequencerStep_total h
  obtain ⟨lead, w, g, work, hlead, hwin, hg, hput, rfl⟩ := scanStep_cases ((sequencerStep_of_lt hp hi).symm.trans ht)
  have hwg : w.length = g.length := (length_of_slice hwin).trans (length_of_slice hg).symm
  have hout : (xeng w g lead).length = s.glen := by rw [length_xeng, hwg, min_self, length_of_slice hg]
  refine ⟨g, w, lead, work, hg, hwin, hlead, ht, ?_, fun j hj => ?_, by omega, regRead_of_scan_progress s work _⟩
  · rw [← xeng_eq_ite hwg, ← hout]
    exact slice_putSlice hput
  · rw [(putSlice_spec hput).2, if_neg (by omega)]

/-- Settles O43: the finish step copies the positions behind the data into REM. -/
theorem finishStepLatchesRemainder : Obligations.FinishStepLatchesRemainder := by
  intro s h hp hi
  obtain ⟨d, g, rem, -, -, hr, hput, hlen, hs⟩ := finishStep_spec h hp hi
  obtain ⟨-, herr, -⟩ := h.spec.scanning hp
  rw [allZero_eq] at hs
  refine ⟨crc d g, rem, hr, (sequencerStep_of_eq hp hi).trans hs, ?_, fun j hj => ?_, herr⟩
  · rw [← hlen]
    exact slice_putSlice hput
  · rw [(putSlice_spec hput).2, if_neg (by omega)]

end Sys2Proof.Machine
end

section
/-!
PROOFS. Whole computations: a scan among the host's accesses, its result, a repeated COMPUTE, and the end of every run
(R129, R130 (b), R133, R239, R240).
-/

namespace Sys2Proof.Machine

/-- From an idle block a COMPUTE that starts a scan was accepted: it withdraws the result, starts at position 0 and
keeps the inputs (R126). -/
theorem execCompute_started {s t : State} (hp : s.phase = .idle) (h : execCompute s = .next t)
    (ht : t.phase = .scan) :
    ∃ work, t = { clearResult s with errcode := .none, work := work, scanI := 0, phase := .scan } := by
  obtain ⟨-, rfl⟩ | ⟨-, work, -, -, -, rfl⟩ := execCompute_cases h
  · cases hp.symm.trans ht
  · exact ⟨work, rfl⟩

/-- Every state that a run comes by meets the invariant. -/
theorem run_keeps_inv {k : Nat} {s t : State} (h : s.Inv) (ht : run k s = .next t) : t.Inv := by
  obtain ⟨u, hu, hinv⟩ | ⟨-, r, hr⟩ := run_inv_or_refused h k
  · cases hu.symm.trans ht; exact hinv
  · cases hr.symm.trans ht

/-! ### A computation among accesses -/

/-- The event is the sequencer's slot or an access that the block admits: no reset, and no stuck host. -/
def undisturbing (c : Config) (e : Event) : Prop := e = .sequencer ∨ ∃ a, e = .access a ∧ accessRefusal c a = none

/-- While a computation runs, an access changes CMDLOST and what the host has read, and nothing else (R64, R65, R88). -/
theorem step_access_of_scan {s : State} {a : Access} {rest : List Event} (h : s.Inv) (hp : s.phase = .scan)
    (hpend : s.pending = .access a :: rest) (ha : accessRefusal s.cfg a = none) :
    ∃ answers cmdlost, step s = .next { s with pending := rest, answers := answers, cmdlost := cmdlost } := by
  obtain ⟨t, ht⟩ : ∃ t, step s = .next t := by
    rw [step_access hpend ha]
    exact hostAccess_total (s := { s with pending := rest }) (h.of_same_block rfl) ha
  obtain ⟨v, rfl⟩ | rfl | ⟨-, rfl⟩ | ⟨i, ⟨hidle, -⟩, -⟩ | ⟨e, ⟨hidle, -⟩, -⟩ := step_access_cases hpend ha ht
  · exact ⟨_, _, ht⟩
  · exact ⟨_, _, ht⟩
  · exact ⟨_, _, ht⟩
  · cases hp.symm.trans hidle
  · cases hp.symm.trans hidle

/-- Below `DLEN` a sequencer slot moves the scan on by one position and changes WORK, and nothing else (R127). -/
theorem step_sequencer_of_scan {s : State} {rest : List Event} (h : s.Inv) (hp : s.phase = .scan)
    (hi : s.scanI < s.dlen) (hpend : s.pending = .sequencer :: rest) :
    ∃ work, step s = .next { s with pending := rest, work := work, scanI := s.scanI + 1 } := by
  obtain ⟨d, g, work, -, -, -, -, -, hs, -⟩ :=
    scanStep_spec (s := { s with pending := rest }) (h.of_same_block rfl) hp hi
  exact ⟨work, (step_sequencer hpend).trans ((sequencerStep_of_lt (s := { s with pending := rest }) hp hi).trans hs)⟩

/-- A scan among admitted accesses comes on by one position with each sequencer slot, up to `DLEN`, on unchanged inputs
(R129). -/
theorem run_scan_among_accesses {s : State} {evs rest : List Event} (h : s.Inv) (hp : s.phase = .scan)
    (hpend : s.pending = evs ++ rest) (hevs : ∀ e ∈ evs, undisturbing s.cfg e)
    (hcount : s.scanI + evs.count .sequencer ≤ s.dlen) :
    ∃ answers cmdlost work, run evs.length s = .next { s with
      pending := rest, answers := answers, cmdlost := cmdlost, work := work
      scanI := s.scanI + evs.count .sequencer } := by
  induction evs generalizing s with
  | nil => exact ⟨s.answers, s.cmdlost, s.work, by rw [show rest = s.pending from hpend.symm]; rfl⟩
  | cons e evs ih =>
    obtain ⟨he, hrest⟩ := List.forall_mem_cons.mp hevs
    obtain rfl | ⟨a, rfl, ha⟩ := he
    · rw [List.count_cons_self] at hcount
      obtain ⟨work, hs⟩ := step_sequencer_of_scan h hp (by omega) hpend
      obtain ⟨answers, cmdlost, work', hrun⟩ := ih (step_keeps_inv h hs) hp rfl hrest (by simp only; omega)
      refine ⟨answers, cmdlost, work', (run_succ_of_next hs).trans (hrun.trans ?_)⟩
      simp only [List.count_cons_self, Nat.add_assoc, Nat.add_comm 1]
    · have hslots : (Event.access a :: evs).count .sequencer = evs.count .sequencer := List.count_cons_of_ne (by simp)
      rw [hslots] at hcount ⊢
      obtain ⟨_, _, hs⟩ := step_access_of_scan h hp hpend ha
      obtain ⟨answers, cmdlost, work, hrun⟩ := ih (step_keeps_inv h hs) hp rfl hrest hcount
      exact ⟨answers, cmdlost, work, (run_succ_of_next hs).trans hrun⟩

/-- A sequencer slot at `DLEN` ends the computation with a result, on unchanged inputs (R128). -/
theorem step_sequencer_of_finish {s : State} {rest : List Event} (h : s.Inv) (hp : s.phase = .scan)
    (hi : s.scanI = s.dlen) (hpend : s.pending = .sequencer :: rest) :
    ∃ t, step s = .next t ∧ t.rvalid = true ∧ t.errcode = .none ∧ t.pending = rest ∧
      t.dataBits = s.dataBits ∧ t.genBits = s.genBits := by
  obtain ⟨-, herr, -⟩ := h.spec.scanning hp
  obtain ⟨d, g, rem, -, -, -, -, -, hs⟩ :=
    finishStep_spec (s := { s with pending := rest }) (h.of_same_block rfl) hp hi
  exact ⟨_, (step_sequencer hpend).trans ((sequencerStep_of_eq (s := { s with pending := rest }) hp hi).trans hs),
    rfl, herr, rfl, rfl, rfl⟩

/-- With a result, RZERO says whether the remainder is 0 (R28). -/
theorem State.Inv.rzero_of_remBits {s : State} {r : Bitstring} (h : s.Inv) (hr : s.rvalid = true)
    (hrem : s.remBits = some r) : s.rzero = decide (true ∉ r) := by
  obtain ⟨r', hr', hz⟩ := h.zeroFlag hr
  cases hr'.symm.trans hrem
  rw [hz, allZero_eq]

/-- Settles O44: the scan among accesses reaches `DLEN` with the inputs of the COMPUTE, the next slot finishes it, and
the invariant says what the result is. -/
theorem computeEndsWithCrc : Obligations.ComputeEndsWithCrc := by
  intro s t evs rest h hidle hc hscan hevs hcount
  obtain ⟨d, hd⟩ := h.dataValued
  obtain ⟨g, hg⟩ := h.genValued
  have htinv : t.Inv := exec_keeps_inv (i := .compute) h hidle hc
  obtain ⟨work, rfl⟩ := execCompute_started hidle hc hscan
  replace htinv := htinv.of_same_block (t := { clearResult s with
    errcode := .none, work := work, scanI := 0, phase := .scan, pending := evs ++ .sequencer :: rest }) rfl
  obtain ⟨_, _, _, hrun⟩ := run_scan_among_accesses htinv rfl rfl hevs (by simp [hcount])
  have huinv := run_keeps_inv htinv hrun
  obtain ⟨w, hw, hrv, herr, hpend, hwd, hwg⟩ := step_sequencer_of_finish huinv rfl (by simp [hcount]) rfl
  have hwinv := step_keeps_inv huinv hw
  obtain ⟨hwidle, hrlen, hrem, -⟩ := hwinv.result_of_inputs hrv (hwd.trans hd) (hwg.trans hg)
  exact ⟨d, g, _, w, hd, hg, hrun, rfl, rfl, rfl, rfl, rfl, rfl, hw, hwidle, hrv, herr, hpend,
    by rw [hrlen, length_of_slice hg], hrem, hwinv.rzero_of_remBits hrv hrem, hwd.trans hd, hwg.trans hg⟩

/-! ### A repeated COMPUTE -/

/-- Settles O46: a result shows the remainder of the inputs, and the repeated computation ends with a result on the
same inputs. -/
theorem repeatedComputeAgrees : Obligations.RepeatedComputeAgrees := by
  intro s t h hr hc hscan
  obtain ⟨hidle, -, -, -, hrlen, d, g, hd, hg, hrem⟩ := h.spec.result hr
  have htinv : t.Inv := exec_keeps_inv (i := .compute) h hidle hc
  obtain ⟨work, rfl⟩ := execCompute_started hidle hc hscan
  obtain ⟨u, hrun, huinv, hurv, -, hud, hug⟩ := run_scan_to_result (s := { clearResult s with
    errcode := .none, work := work, scanI := 0, phase := .scan, pending := [] }) (htinv.of_same_block rfl) rfl rfl
  obtain ⟨-, hurlen, hurem, -⟩ := huinv.result_of_inputs hurv (hud.trans hd) (hug.trans hg)
  refine ⟨rfl, u, hrun, hurv, hurem.trans hrem.symm, ?_, ?_⟩
  · rw [hurlen, hrlen, length_of_slice hg]
  · rw [huinv.rzero_of_remBits hurv hurem, h.rzero_of_remBits hr hrem]

/-! ### The end of every run -/

/-- A run of admitted events uses them up, one each step, and keeps the parameters. -/
theorem run_uses_up_pending {s : State} (h : s.Inv) (ha : s.admissible) :
    ∃ t, run s.pending.length s = .next t ∧ t.pending = [] ∧ t.cfg = s.cfg := by
  induction hp : s.pending generalizing s with
  | nil => exact ⟨s, rfl, hp, rfl⟩
  | cons e rest ih =>
    have hturn : nextTurn s.cfg s.pending = some (e, rest) := by rw [nextTurn_of_admissible ha, hp]; rfl
    obtain ⟨u, hu⟩ := runEvent_total (s := { s with pending := rest }) (h.of_same_block rfl) hturn
    have hs : step s = .next u := (step_of_turn hturn).trans hu
    obtain ⟨hcfg, hpend⟩ := Prod.mk.inj (runEvent_environment hu)
    obtain ⟨t, ht, htp, htc⟩ := ih (step_keeps_inv h hs) (step_keeps_admissible ha hs) hpend
    exact ⟨t, (run_succ_of_next hs).trans ht, htp, htc.trans hcfg⟩

/-- With nothing pending, nothing becomes pending. -/
theorem run_pending_nil {k : Nat} {s t : State} (hp : s.pending = []) (h : run k s = .next t) : t.pending = [] := by
  induction k generalizing s with
  | zero => cases h; exact hp
  | succ k ih =>
    cases hs : step s with
    | next u =>
      have hpend := (Prod.mk.inj (sequencerStep_environment ((step_nil hp).symm.trans hs))).2
      exact ih (hpend.trans hp) ((run_succ_of_next hs).symm.trans h)
    | fault f => rw [run_succ_of_fault hs] at h; cases h
    | refused r => rw [run_succ_of_refused hs] at h; cases h

/-- A state that steps to itself is where every run from it ends. -/
theorem run_of_fixed {s : State} (h : step s = .next s) (k : Nat) : run k s = .next s := by
  induction k with
  | zero => rfl
  | succ k ih => exact (run_succ_of_next h).trans ih

theorem step_of_idle_nil {s : State} (hidle : s.phase = .idle) (hp : s.pending = []) : step s = .next s :=
  (step_nil hp).trans (sequencerStep_of_idle hidle)

/-- With nothing pending the block is idle within `MAX_BITS + 1` steps: a scan has at most that many steps left
(R133). -/
theorem run_to_idle {s : State} (h : s.Inv) (hp : s.pending = []) :
    ∃ k t, k ≤ s.cfg.maxBits + 1 ∧ run k s = .next t ∧ t.phase = .idle ∧ t.pending = [] := by
  cases hphase : s.phase with
  | idle => exact ⟨0, s, Nat.zero_le _, rfl, hphase, hp⟩
  | scan =>
    obtain ⟨u, hrun, huinv, hrv, -⟩ := run_scan_to_result h hphase hp
    have hle := h.spec.lengths.1
    exact ⟨_, u, by omega, hrun, (huinv.spec.result hrv).1, run_pending_nil hp hrun⟩

/-- Settles O12: the events are used up, the scan that may then run comes to its end, and the idle block stays; so
the run comes by an ended state, and by a first one. -/
theorem everyRunEnds : Obligations.EveryRunEnds := by
  intro s k h ha hk
  obtain ⟨t, ht, htp, htc⟩ := run_uses_up_pending h ha
  obtain ⟨n, u, hn, hu, huidle, hup⟩ := run_to_idle (run_keeps_inv h ht) htp
  have hfixed := step_of_idle_nil huidle hup
  have hended : u.ended := ⟨by simp [hup], huidle⟩
  have hrun : run k s = .next u := by
    obtain ⟨m, rfl⟩ : ∃ m, k = s.pending.length + (n + m) := ⟨k - s.pending.length - n, by rw [htc] at hn; omega⟩
    rw [run_add ht, run_add hu, run_of_fixed hfixed]
  obtain ⟨j, v, hj, hv, hve, hend, hfirst⟩ := runToEnd_of_run hrun hended
  exact ⟨⟨u, hrun, hup, hended, hfixed⟩, j, v, hj, hv, hve, hend, run_keeps_inv h hv, hfirst⟩

end Sys2Proof.Machine
end

section
/-!
PROOFS. The readout: SEL, and the two character ports as the bits of the remainder and of the frame
(spec/42_readout.md).
-/

namespace Sys2Proof.Machine

/-! ### The character ports -/

/-- What a character port reads for the bit at its index, if there is one: CVALID and the character, or 0 (R152,
R153). -/
def portWord : Option Bit → Word
  | some b => if b then 0x131 else 0x130
  | none => 0

theorem charWord_eq_portWord (b : Bit) : charWord b = portWord (some b) := by
  cases b with
  | true => rfl
  | false => rfl

/-- A cell of a valued slice reads as the slice's bit. -/
theorem charOf_eq_portWord {cells : Cells} {n i : Nat} {bs : Bitstring} (h : Cells.slice cells 0 n = some bs)
    (hi : i < n) : charOf cells i = some (portWord bs[i]?) := by
  have hlt : i < bs.length := by rw [length_of_slice h]; exact hi
  rw [charOf_of_slice h hi, List.getElem?_eq_getElem hlt, Option.map_some, charWord_eq_portWord]

/-- Past the end of a bitstring a port reads 0. -/
theorem portWord_past_end {bs : Bitstring} {i : Nat} (h : bs.length ≤ i) : portWord bs[i]? = 0 := by
  rw [List.getElem?_eq_none h]; rfl

/-- Where no remainder bit is selected, REMCH reads 0 (R152). -/
theorem regRead_remch_of_no_bit {s : State} (h : ¬(s.rvalid = true ∧ s.ridx.toNat < s.rlen)) :
    regRead s (some .remch) = some 0 := if_neg h

/-- With a result REMCH reads the remainder at RIDX, at every index (R152). -/
theorem regRead_remch_of_result {s : State} {r : Bitstring} (hv : s.rvalid = true) (hr : s.remBits = some r) :
    regRead s (some .remch) = some (portWord r[s.ridx.toNat]?) := by
  have hlen : r.length = s.rlen := length_of_slice hr
  by_cases hi : s.ridx.toNat < s.rlen
  · exact (if_pos ⟨hv, hi⟩).trans (charOf_eq_portWord hr hi)
  · rw [portWord_past_end (by omega)]
    exact regRead_remch_of_no_bit fun hsel => hi hsel.2

/-- Without a result FRAMECH reads 0 (R153). -/
theorem regRead_framech_of_no_result {s : State} (hv : s.rvalid = false) : regRead s (some .framech) = some 0 := by
  simp [regRead, framechWord, hv]

/-- With a result FRAMECH reads the frame at RIDX, at every index: below DLEN the data, then the remainder (R151,
R153). -/
theorem regRead_framech_of_result {s : State} {d r : Bitstring} (hv : s.rvalid = true) (hd : s.dataBits = some d)
    (hr : s.remBits = some r) : regRead s (some .framech) = some (portWord (d ++ r)[s.ridx.toNat]?) := by
  have hdlen : d.length = s.dlen := length_of_slice hd
  have hrlen : r.length = s.rlen := length_of_slice hr
  by_cases hi : s.ridx.toNat < s.dlen
  · rw [List.getElem?_append_left (by omega)]
    exact (if_pos ⟨hv, hi⟩).trans (charOf_eq_portWord hd hi)
  · refine (if_neg fun hsel => hi hsel.2).trans ?_
    rw [List.getElem?_append_right (by omega), hdlen]
    by_cases hj : s.ridx.toNat < s.dlen + s.rlen
    · exact (if_pos ⟨hv, hj⟩).trans (charOf_eq_portWord hr (by omega))
    · rw [portWord_past_end (by omega)]
      exact if_neg fun hsel => hj hsel.2

/-! ### The frame -/

theorem frame_of_result {s : State} {d r : Bitstring} (hv : s.rvalid = true) (hd : s.dataBits = some d)
    (hr : s.remBits = some r) : s.frame = some (d ++ r) := by
  simp [State.frame, hv, hd, hr]

theorem frame_of_no_result {s : State} (hv : s.rvalid = false) : s.frame = none := by
  simp [State.frame, hv]

/-! ### What the ports read -/

/-- Settles O26: a result's remainder has values in all its RLEN positions, so REMCH reads the one at RIDX. -/
theorem remchReadsRemainder : Obligations.RemchReadsRemainder := by
  refine fun s h => ⟨fun hv hi => ?_, regRead_remch_of_no_bit⟩
  obtain ⟨r, hr, -⟩ := h.zeroFlag hv
  have hb : r[s.ridx.toNat]? = some (r[s.ridx.toNat]'(by rw [length_of_slice hr]; exact hi)) :=
    List.getElem?_eq_getElem _
  exact ⟨r, _, hr, hb, by rw [regRead_remch_of_result hv hr, hb, portWord]⟩

/-- Settles O27: R32 gives the frame's two parts and their lengths, and FRAMECH reads the frame at RIDX. -/
theorem framechReadsFrame : Obligations.FramechReadsFrame := by
  refine fun s h => ⟨fun hv => ?_, fun hv => ⟨frame_of_no_result hv, regRead_framech_of_no_result hv⟩⟩
  obtain ⟨-, -, hg1, hfit, hrlen, d, g, hd, -, hr⟩ := h.spec.result hv
  have hlen : (d ++ crc d g).length = s.dlen + s.rlen := by
    rw [List.length_append, length_of_slice hd, length_of_slice hr]
  refine ⟨d, crc d g, _, hd, hr, frame_of_result hv hd hr, rfl, hlen, by omega, by omega, ?_⟩
  rw [regRead_framech_of_result hv hd hr]
  cases (d ++ crc d g)[s.ridx.toNat]? with
  | some b => rfl
  | none => rfl

/-! ### SEL -/

/-- Settles O38: SEL leaves the result as it is, so the ports read it at the new index; R32 says that the remainder is
the one of the inputs. -/
theorem selectThenReadGivesEachBit : Obligations.SelectThenReadGivesEachBit := by
  intro s idx h hv
  obtain ⟨-, -, -, -, -, d, g, hd, hg, hr⟩ := h.spec.result hv
  exact ⟨d, g, { s with ridx := idx }, hd, hg, rfl, regRead_remch_of_result hv hr,
    regRead_framech_of_result hv hd hr⟩

/-- Settles O37: SEL's one write, the read of RIDX (R40), and the busy test (O17). -/
theorem selSetsReadIndex : Obligations.SelSetsReadIndex :=
  ⟨fun s idx => ⟨{ s with ridx := idx }, rfl, rfl, rfl⟩, fun _ => dispatchTestsBusyFirst.1 _⟩

end Sys2Proof.Machine
end

section
/-!
PROOFS. The control commands: NOP, CLEAR and a word that spells no command (spec/43_control.md).
-/

namespace Sys2Proof.Machine

/-! ### A word that spells no command -/

/-- No register but STATUS shows ERRCODE (R35). -/
theorem regRead_of_errcode (s : State) (e : ErrCode) {r : Reg} (h : r ≠ .status) :
    regRead { s with errcode := e } (some r) = regRead s (some r) := by
  cases r with
  | status => exact absurd rfl h
  | _ => rfl

/-- Settles O18: the busy test (O17), an illegal word's one write, and the two commands that write ERRCODE back. -/
theorem illegalWordRecordsError : Obligations.IllegalWordRecordsError := by
  intro v e hd
  refine ⟨dispatchTestsBusyFirst.1 v, fun s rest hidle hp => ?_⟩
  have hstep := (dispatchTestsBusyFirst.2 s v rest hidle hp).2 e hd
  refine ⟨_, hstep, rfl, rfl, rfl, fun r hr => ?_, ⟨_, rfl, rfl⟩, fun u hu hscan => ?_⟩
  · have hne : r ≠ .status := by rintro rfl; simp at hr
    exact regRead_of_errcode { s with pending := rest } .illegalCommand hne
  · obtain ⟨work, rfl⟩ :=
      execCompute_started (s := { s with pending := rest, errcode := .illegalCommand }) hidle hu hscan
    rfl

/-! ### NOP -/

/-- With opcode 0 only NOP's own word is a command (R82, R87). -/
theorem decode_of_op0_ne_zero {v : Word} (hop : opField v = 0) (hv : v ≠ 0x00000000) :
    ∃ e, decode v = .error e := by
  have hd := decode_of_op0 hop
  cases hok : formatNOk v with
  | false => exact ⟨_, hd.trans (assigned_eq_reservedBitSet.mpr hok)⟩
  | true =>
    have hnop : decode v = .ok .nop := hd.trans (assigned_eq_ok.mpr ⟨hok, rfl⟩)
    exact absurd (encode_of_decode hnop).symm hv

/-- Settles O30: NOP's arm, its word and no other with its opcode, and the busy test (O17). -/
theorem nopChangesNothing : Obligations.NopChangesNothing :=
  ⟨fun _ => rfl, decode_encode .nop, fun _ => decode_of_op0_ne_zero, dispatchTestsBusyFirst.1 _⟩

/-! ### CLEAR -/

/-- What the registers show after CLEAR rests on no parameter: with the lengths and RVALID at 0 no cell is read. -/
theorem regRead_cleared_eq (s : State) (slot : Option Reg) :
    regRead s.cleared slot = regRead (State.resetFor s.cfg) slot := rfl

/-- CMDLOST is left as it is by every command but CLEAR (R30). -/
theorem exec_cmdlost {i : Instr} {s t : State} (h : exec i s = .next t) : i = .clear ∨ t.cmdlost = s.cmdlost := by
  cases i with
  | clear => exact .inl rfl
  | nop => cases h; exact .inr rfl
  | sel idx => cases h; exact .inr rfl
  | pushd ch => rw [execPushd_frame h]; exact .inr rfl
  | pushg ch => rw [execPushg_frame h]; exact .inr rfl
  | compute => rw [execCompute_frame h]; exact .inr rfl

/-- Settles O31: an idle block after CLEAR reads as after reset, and CMDLOST survives every other command. -/
theorem clearEmptiesInputsAndFlags : Obligations.ClearEmptiesInputsAndFlags := by
  refine ⟨fun _ => rfl, fun s t hidle h r hr => ?_, fun i s t h hs ht => ?_, dispatchTestsBusyFirst.1 _⟩
  · cases (exec_clear_of_idle hidle).symm.trans h
    exact (regRead_cleared_eq s _).trans (regRead_resetFor s.cfg r hr)
  · refine (exec_cmdlost h).resolve_right fun hkeep => ?_
    rw [hs, ht] at hkeep
    cases hkeep

/-! ### The frame -/

/-- Settles O41, from what each of the three commands writes. -/
theorem controlFrame : Obligations.ControlFrame := by
  refine fun i s t h => ⟨?_, ?_, ?_⟩
  · rintro rfl
    cases h
    rfl
  · rintro idx rfl
    cases h
    rfl
  · rintro rfl
    cases h
    exact ⟨rfl, rfl, rfl, rfl, rfl, rfl, rfl, rfl, fun _ => ⟨rfl, rfl⟩⟩

end Sys2Proof.Machine
end

section
/-!
PROOFS. How the block records what went wrong: the error of a rejected COMPUTE in STATUS, and the sticky flags
(spec/60_exceptions.md).
-/

namespace Sys2Proof.Machine

/-! ### The error of a rejected COMPUTE -/

/-- Each cause of R202 to R204 is enough for a rejection. -/
theorem validate_ne_none {s : State}
    (h : s.invch = true ∨ s.dlen = 0 ∨ s.glen = 0 ∨ s.dovf = true ∨ s.govf = true ∨
      s.cfg.maxBits < s.dlen + s.glen - 1) : validate s ≠ .none := by
  intro hv
  obtain ⟨hi, hd, hg, hdo, hgo, hfit⟩ := validate_eq_none.mp hv
  simp only [hi, hdo, hgo, Bool.false_eq_true, false_or] at h
  omega

/-- The code that a rejection records, in the order of R208. -/
theorem code_validate_of_rejected {s : State} (h : validate s ≠ .none) :
    (validate s).code = if s.invch then 1 else if s.dlen = 0 ∨ s.glen = 0 then 2 else 3 := by
  unfold validate at h ⊢
  split_ifs at h ⊢
  · rfl
  · rfl
  · rfl
  · exact absurd rfl h

/-- The low bits of STATUS with an error recorded, not busy and without a result (R35). -/
theorem statusWord_low_of_error {s : State} (hp : s.phase = .idle) (hv : s.rvalid = false) (hz : s.rzero = false)
    (he : s.errcode ≠ .none) : (statusWord s).extractLsb' 0 4 = 0x4 := by
  have hbusy : s.busy = false := busy_eq_false.mpr hp
  have herr : s.err = true := err_eq_true_iff.mpr he
  ext j hj
  rw [BitVec.getElem_extractLsb', getLsbD_statusWord _ (by omega), hbusy, hv, hz, herr]
  interval_cases j <;> simp

/-- Settles O36: a cause makes validation reject, the rejection writes the error and withdraws the result, and STATUS
shows the error's code and the flags. -/
theorem computeErrorsInPriorityOrder : Obligations.ComputeErrorsInPriorityOrder := by
  intro s rest hidle hp hcause
  have hrej : validate s ≠ .none := validate_ne_none hcause
  have hstep := stepRunsDecodedCommand s _ .compute rest hidle hp (decode_encode .compute)
  refine ⟨_, _, hstep.trans (execCompute_of_rejected (s := { s with pending := rest }) hrej), rfl, ?_,
    statusWord_low_of_error hidle rfl rfl hrej, statusWord_invch _, statusWord_dovf _, statusWord_govf _,
    rfl, rfl, rfl, rfl, rfl⟩
  exact (statusWord_errcode _).trans (code_validate_of_rejected hrej)

/-! ### The sticky flags -/

/-- The sticky flags `INVCH`, `DOVF`, `GOVF` and `CMDLOST` (R30). -/
def State.sticky (s : State) : Bool × Bool × Bool × Bool := (s.invch, s.dovf, s.govf, s.cmdlost)

theorem State.sticky_eq {s : State} {i d g c : Bool} :
    s.sticky = (i, d, g, c) ↔ s.invch = i ∧ s.dovf = d ∧ s.govf = g ∧ s.cmdlost = c := by
  simp only [State.sticky, Prod.mk.injEq]

theorem ne_characters_of_chr2bit {ch : Byte} (h : chr2bit ch = none) : ch ≠ 0x30 ∧ ch ≠ 0x31 := by
  constructor
  all_goals
    rintro rfl
    cases h

theorem eq_character_of_chr2bit {ch : Byte} {b : Bit} (h : chr2bit ch = some b) : ch = 0x30 ∨ ch = 0x31 := by
  by_contra hch
  obtain ⟨h0, h1⟩ := not_or.mp hch
  cases h.symm.trans (chr2bit_of_not_character h0 h1)

/-- What a command does to the sticky flags: CLEAR clears them all, an invalid character sets `INVCH`, a valid one at a
full buffer sets the buffer's overflow flag, and nothing else touches them (R101, R102, R171). -/
theorem exec_sticky {i : Instr} {s t : State} (h : exec i s = .next t) :
    t.sticky = s.sticky ∨
    (i = .clear ∧ t.sticky = (false, false, false, false)) ∨
    ((∃ ch, ch ≠ 0x30 ∧ ch ≠ 0x31 ∧ (i = .pushd ch ∨ i = .pushg ch)) ∧
      t.sticky = (true, s.dovf, s.govf, s.cmdlost)) ∨
    (s.dlen = s.cfg.maxBits ∧ (i = .pushd 0x30 ∨ i = .pushd 0x31) ∧
      t.sticky = (s.invch, true, s.govf, s.cmdlost)) ∨
    (s.glen = s.cfg.maxBits ∧ (i = .pushg 0x30 ∨ i = .pushg 0x31) ∧
      t.sticky = (s.invch, s.dovf, true, s.cmdlost)) := by
  cases i with
  | nop => cases h; exact .inl rfl
  | sel idx => cases h; exact .inl rfl
  | clear => cases h; exact .inr (.inl ⟨rfl, rfl⟩)
  | compute => rw [execCompute_frame h]; exact .inl rfl
  | pushd ch =>
    obtain ⟨hch, rfl⟩ | ⟨b, hch, hfull, rfl⟩ | ⟨-, -, -, -, -, rfl⟩ := execPushd_cases h
    · obtain ⟨h0, h1⟩ := ne_characters_of_chr2bit hch
      exact .inr (.inr (.inl ⟨⟨ch, h0, h1, .inl rfl⟩, rfl⟩))
    · have hchar := (eq_character_of_chr2bit hch).imp (congrArg Instr.pushd) (congrArg Instr.pushd)
      exact .inr (.inr (.inr (.inl ⟨hfull, hchar, rfl⟩)))
    · exact .inl rfl
  | pushg ch =>
    obtain ⟨hch, rfl⟩ | ⟨b, hch, hfull, rfl⟩ | ⟨-, -, -, -, -, rfl⟩ := execPushg_cases h
    · obtain ⟨h0, h1⟩ := ne_characters_of_chr2bit hch
      exact .inr (.inr (.inl ⟨⟨ch, h0, h1, .inr rfl⟩, rfl⟩))
    · have hchar := (eq_character_of_chr2bit hch).imp (congrArg Instr.pushg) (congrArg Instr.pushg)
      exact .inr (.inr (.inr (.inr ⟨hfull, hchar, rfl⟩)))
    · exact .inl rfl

/-- What a step does to the sticky flags: a lost command sets `CMDLOST`, an executed command does what `exec_sticky`
says, a reset clears them all, and every other step leaves them (R30, R212). -/
theorem step_sticky {s t : State} (h : step s = .next t) :
    t.sticky = s.sticky ∨
    (s.losesCommand ∧ t.sticky = (s.invch, s.dovf, s.govf, true)) ∨
    (∃ i rest, s.executes (.ok i) ∧ exec i { s with pending := rest } = .next t) ∨
    (s.resets ∧ t.sticky = (false, false, false, false)) := by
  obtain ⟨rest, -, hs⟩ | ⟨rest, rfl⟩ | ⟨rest, v, rfl⟩ | ⟨rest, hl, rfl⟩ | ⟨rest, i, hi, hs⟩ |
    ⟨rest, e, -, rfl⟩ | ⟨rest, ans, dr, hr, rfl⟩ := step_kinds h
  · rw [(sequencerStep_writes hs).1]; exact .inl rfl
  · exact .inl rfl
  · exact .inl rfl
  · exact .inr (.inl ⟨hl, rfl⟩)
  · exact .inr (.inr (.inl ⟨i, rest, hi, hs⟩))
  · exact .inl rfl
  · exact .inr (.inr (.inr ⟨hr, rfl⟩))

theorem State.executes.of_or {s : State} {i j k : Instr} (hi : s.executes (.ok i)) (h : i = j ∨ i = k) :
    s.executes (.ok j) ∨ s.executes (.ok k) := by
  obtain rfl | rfl := h
  · exact .inl hi
  · exact .inr hi

/-- Settles O55: in each case of what a step and a command do to the sticky flags, one flag is set with its cause, all
are cleared by CLEAR or reset, or none changes. -/
theorem stickyFlagsSetAndCleared : Obligations.StickyFlagsSetAndCleared := by
  intro s t h
  obtain hkeep | ⟨hl, hset⟩ | ⟨i, rest, hi, hs⟩ | ⟨hr, hnone⟩ := step_sticky h
  · simp +contextual [State.sticky_eq.mp hkeep]
  · simp +contextual [State.sticky_eq.mp hset, hl]
  · obtain hkeep | ⟨rfl, hnone⟩ | ⟨⟨ch, h0, h1, hch⟩, hset⟩ | ⟨hfull, hch, hset⟩ |
      ⟨hfull, hch, hset⟩ := exec_sticky hs
    · simp +contextual [State.sticky_eq.mp hkeep]
    · simp [State.sticky_eq.mp hnone, hi]
    · refine ⟨fun _ _ => ⟨ch, h0, h1, hi.of_or hch⟩, ?_⟩
      simp +contextual [State.sticky_eq.mp hset]
    · refine ⟨?_, fun _ _ => ⟨hfull, hi.of_or hch⟩, ?_⟩ <;> simp +contextual [State.sticky_eq.mp hset]
    · refine ⟨?_, ?_, fun _ _ => ⟨hfull, hi.of_or hch⟩, ?_⟩ <;> simp +contextual [State.sticky_eq.mp hset]
  · simp [State.sticky_eq.mp hnone, hr]

end Sys2Proof.Machine
end

section
/-!
PROOFS. Reset and CLEAR, the hazard of a command written too early, what a run can still do at its end, and the
sequencer's fairness (spec/70_reset_and_hazards.md).
-/

namespace Sys2Proof.Machine

/-! ### The sequencer goes on whatever the host does (R239) -/

/-- A running computation's slot ends it or takes the scan one position closer to the end of the data (R127, R128). -/
theorem sequencerStep_advances {s : State} (h : s.Inv) (hp : s.phase = .scan) :
    ∃ t, sequencerStep s = .next t ∧ t.pending = s.pending ∧
      (t.phase = .idle ∨ t.phase = .scan ∧ t.dlen - t.scanI < s.dlen - s.scanI) := by
  obtain ⟨-, -, -, -, -, hle⟩ := h.spec.scanning hp
  obtain ⟨t, ht⟩ := sequencerStep_total h
  refine ⟨t, ht, (Prod.mk.inj (sequencerStep_environment ht)).2, ?_⟩
  obtain ⟨hidle, -⟩ | ⟨-, hlt, hscan⟩ | ⟨-, -, hfinish⟩ | ⟨-, hgt, -⟩ := sequencerStep_cases ht
  · cases hp.symm.trans hidle
  · obtain ⟨_, _, _, work, -, -, -, -, rfl⟩ := scanStep_cases hscan
    exact .inr ⟨hp, by simp only; omega⟩
  · obtain ⟨_, rem, -, -, rfl⟩ := finishStep_cases hfinish
    exact .inl rfl
  · omega

/-- While a computation runs, the next step is the sequencer's, a reset, or an admitted access of the host's. -/
theorem turn_of_scan {s : State} (hp : s.phase = .scan) :
    s.sequences ∨ s.resets ∨ ∃ a rest, s.pending = .access a :: rest ∧ accessRefusal s.cfg a = none := by
  cases hn : nextTurn s.cfg s.pending with
  | none => exact .inl ⟨hp, .inl hn⟩
  | some turn =>
    obtain ⟨e, rest⟩ := turn
    cases e with
    | access a => exact .inr (.inr ⟨a, rest, nextTurn_access hn⟩)
    | sequencer => exact .inl ⟨hp, .inr ⟨rest, hn⟩⟩
    | reset a => exact .inr (.inl ⟨rest, .inl ⟨a, hn⟩⟩)
    | powerLoss => exact .inr (.inl ⟨rest, .inr hn⟩)

theorem State.sequences.step_eq {s : State} (h : s.sequences) :
    ∃ rest, rest.length ≤ s.pending.length ∧ step s = sequencerStep { s with pending := rest } := by
  obtain ⟨hp, hn | ⟨rest, hn⟩⟩ := h
  · exact ⟨s.pending, le_rfl, step_alone_busy hn hp⟩
  · exact ⟨rest, by rw [nextTurn_length hn]; omega, step_of_turn hn⟩

theorem State.resets.step_idle {s : State} (h : s.resets) : ∃ t, step s = .next t ∧ t.phase = .idle := by
  obtain ⟨rest, ⟨a, hn⟩ | hn⟩ := h
  · exact ⟨_, step_of_turn hn, rfl⟩
  · exact ⟨_, step_of_turn hn, rfl⟩

/-- A bound on the steps that a running computation takes before its finish step: the events that are pending and the
positions that are still to scan. -/
def State.stepsLeft (s : State) : Nat := s.pending.length + (s.dlen - s.scanI)

/-- Every step of a running computation ends it or comes closer to its finish step. -/
theorem step_of_scan_advances {s : State} (h : s.Inv) (hp : s.phase = .scan) :
    ∃ t, step s = .next t ∧ (t.phase = .idle ∨ t.phase = .scan ∧ t.stepsLeft < s.stepsLeft) := by
  obtain hseq | hreset | ⟨a, rest, hpend, ha⟩ := turn_of_scan hp
  · obtain ⟨rest, hle, hs⟩ := hseq.step_eq
    obtain ⟨t, ht, hpend, hadv⟩ :=
      sequencerStep_advances (s := { s with pending := rest }) (h.of_same_block rfl) hp
    refine ⟨t, hs.trans ht, hadv.imp_right (And.imp_right fun hlt => ?_)⟩
    rw [State.stepsLeft, State.stepsLeft, hpend]
    exact Nat.add_lt_add_of_le_of_lt hle hlt
  · obtain ⟨t, ht, hidle⟩ := hreset.step_idle
    exact ⟨t, ht, .inl hidle⟩
  · obtain ⟨_, _, hs⟩ := step_access_of_scan h hp hpend ha
    refine ⟨_, hs, .inr ⟨hp, ?_⟩⟩
    simp [State.stepsLeft, hpend]

/-- A running computation is idle again one step after its bound at the latest. -/
theorem run_scan_to_idle {s : State} (h : s.Inv) (hp : s.phase = .scan) :
    ∃ k t, k ≤ s.stepsLeft + 1 ∧ run k s = .next t ∧ t.phase = .idle := by
  induction hn : s.stepsLeft using Nat.strong_induction_on generalizing s with
  | _ n ih =>
    obtain ⟨u, hu, hidle | ⟨hscan, hlt⟩⟩ := step_of_scan_advances h hp
    · exact ⟨1, u, by omega, run_succ_of_next hu, hidle⟩
    · obtain ⟨k, t, hk, ht, hidle⟩ := ih _ (hn ▸ hlt) (step_keeps_inv h hu) hscan rfl
      exact ⟨k + 1, t, by omega, (run_succ_of_next hu).trans ht, hidle⟩

/-- Only admitted accesses can come before the sequencer's turn or a reset, and each uses up one event. -/
theorem run_scan_to_turn {s : State} (h : s.Inv) (hp : s.phase = .scan) :
    ∃ k u, k ≤ s.pending.length ∧ run k s = .next u ∧ u.phase = .scan ∧ (u.sequences ∨ u.resets) := by
  induction hn : s.pending generalizing s with
  | nil => exact ⟨0, s, le_rfl, rfl, hp, .inl ⟨hp, .inl (by rw [hn]; rfl)⟩⟩
  | cons e rest ih =>
    obtain hseq | hreset | ⟨a, rest', hpend, ha⟩ := turn_of_scan hp
    · exact ⟨0, s, Nat.zero_le _, rfl, hp, .inl hseq⟩
    · exact ⟨0, s, Nat.zero_le _, rfl, hp, .inr hreset⟩
    · cases hn.symm.trans hpend
      obtain ⟨_, _, hs⟩ := step_access_of_scan h hp hpend ha
      obtain ⟨k, u, hk, hu, hturn⟩ := ih (step_keeps_inv h hs) hp rfl
      exact ⟨k + 1, u, Nat.succ_le_succ hk, (run_succ_of_next hs).trans hu, hturn⟩

/-- Settles O14: before the sequencer's turn or a reset come only admitted accesses, and every step of a running
computation, whoever's turn it is, brings its end closer. -/
theorem sequencerRunsWhateverTheHostDoes : Obligations.SequencerRunsWhateverTheHostDoes := by
  refine fun s h hp => ⟨run_scan_to_turn h hp, ?_⟩
  obtain ⟨k, t, hk, ht, hidle⟩ := run_scan_to_idle h hp
  have hdlen := h.spec.lengths.1
  exact ⟨k, t, by unfold State.stepsLeft at hk; omega, ht, hidle, run_keeps_inv h ht⟩

/-! ### The end of a run (R240) -/

/-- The step that a running computation has enabled changes PHASE or the distance to the end of the data. -/
theorem sequencerStep_changes {s : State} (h : s.Inv) (hp : s.phase = .scan) :
    ∃ t, sequencerStep s = .next t ∧ t ≠ s := by
  obtain ⟨t, ht, -, hadv⟩ := sequencerStep_advances h hp
  refine ⟨t, ht, ?_⟩
  rintro rfl
  obtain hidle | ⟨-, hlt⟩ := hadv
  · cases hp.symm.trans hidle
  · exact absurd hlt (lt_irrefl _)

theorem not_ended_of_scan {s : State} (hp : s.phase = .scan) : ¬s.ended :=
  fun hend => nomatch hp.symm.trans hend.2

theorem not_ended_of_host_event {s : State} {e : Event} (he : e ∈ s.pending) (hhost : makesAccess e = true) :
    ¬s.ended :=
  fun hend => nomatch hhost.symm.trans (hend.1 e he)

theorem ended_of_no_host_event {s : State} (hidle : s.phase = .idle)
    (hev : ∀ e ∈ s.pending, e = .sequencer ∨ e = .reset none ∨ e = .powerLoss) : s.ended := by
  refine ⟨fun e he => ?_, hidle⟩
  obtain rfl | rfl | rfl := hev e he <;> rfl

/-- Settles O13: what is left of an ended run is idle slots, which change nothing that a register shows, and resets. -/
theorem endedRunKeepsItsObservation : Obligations.EndedRunKeepsItsObservation := by
  refine ⟨fun s hp => ⟨not_ended_of_scan hp, fun h => sequencerStep_changes h hp⟩, fun s a ha => ?_,
    fun s => ended_of_no_host_event, fun s hend => ?_⟩
  · obtain ha | ha := ha
    · exact not_ended_of_host_event ha rfl
    · exact not_ended_of_host_event ha rfl
  · obtain ⟨t, ht, htend, hpend, hr | rfl⟩ := step_of_ended hend
    · exact ⟨t, ht, htend, hpend, .inl hr⟩
    · exact ⟨_, ht, htend, rfl, .inr ⟨rfl, rfl⟩⟩

/-! ### No partial result (R235, R236) -/

/-- Without a result RLEN, REMCH and FRAMECH read 0. -/
theorem regRead_of_no_result {s : State} (h : s.Inv) (hv : s.rvalid = false) :
    ∀ r ∈ [Reg.rlen, .remch, .framech], regRead s (some r) = some 0 := by
  obtain ⟨hrlen, -⟩ := h.spec.noResult hv
  simp only [List.mem_cons, List.not_mem_nil, or_false]
  rintro r (rfl | rfl | rfl)
  · simp [regRead, hrlen, zext32]
  · exact regRead_remch_of_no_bit (by simp [hv])
  · exact regRead_framech_of_no_result hv

/-- During a computation the low byte of STATUS shows BUSY alone (R35). -/
theorem statusWord_low_of_scan {s : State} (h : s.Inv) (hp : s.phase = .scan) :
    (statusWord s).extractLsb' 0 8 = 0x01 := by
  obtain ⟨hv, he, -⟩ := h.spec.scanning hp
  obtain ⟨-, hz⟩ := h.spec.noResult hv
  have hbusy : s.busy = true := busy_eq_true.mpr hp
  have herr : s.err = false := Bool.eq_false_iff.mpr fun herr => err_eq_true_iff.mp herr he
  ext j hj
  rw [BitVec.getElem_extractLsb', getLsbD_statusWord _ (by omega), hbusy, hv, hz, herr, he]
  interval_cases j <;> simp [ErrCode.code]

/-- Settles O29: the invariant gives every register a value; a computation has no result, and STATUS shows it. -/
theorem noPartialResultIsRead : Obligations.NoPartialResultIsRead :=
  fun _ h => ⟨regRead_total h, regRead_of_no_result h, fun hp => ⟨(h.spec.scanning hp).1, _, rfl,
    statusWord_low_of_scan h hp, statusWord_invch _, statusWord_dovf _, statusWord_govf _, statusWord_cmdlost _⟩⟩

/-! ### The busy hazard (R234) -/

/-- Sequencer slots are used up one each step, and neither the parameters nor CMDLOST change on the way. -/
theorem run_slots_frame {n : Nat} {s t : State} {rest : List Event}
    (hpend : s.pending = List.replicate n .sequencer ++ rest) (h : run n s = .next t) :
    t.cfg = s.cfg ∧ t.cmdlost = s.cmdlost ∧ t.pending = rest := by
  induction n generalizing s with
  | zero => cases h; exact ⟨rfl, rfl, hpend⟩
  | succ n ih =>
    have hs := step_sequencer (rest := List.replicate n .sequencer ++ rest) hpend
    cases hu : step s with
    | next u =>
      rw [run_succ_of_next hu] at h
      have hframe := (sequencerStep_writes (hs.symm.trans hu)).1
      obtain ⟨hcfg, hlost, hrest⟩ := ih (by rw [hframe]) h
      exact ⟨by rw [hcfg, hframe], by rw [hlost, hframe], hrest⟩
    | fault f => rw [run_succ_of_fault hu] at h; cases h
    | refused r => rw [run_succ_of_refused hu] at h; cases h

/-- As many sequencer slots as the data has positions, and one more, take a computation from its start to its result
(R127, R128). -/
theorem run_slots_to_result {s : State} {rest : List Event} (h : s.Inv) (hp : s.phase = .scan) (hi : s.scanI = 0)
    (hpend : s.pending = List.replicate (s.dlen + 1) .sequencer ++ rest) :
    ∃ u, run (s.dlen + 1) s = .next u ∧ u.phase = .idle ∧ u.rvalid = true := by
  rw [List.replicate_succ', List.append_assoc] at hpend
  obtain ⟨_, _, _, hrun⟩ := run_scan_among_accesses h hp hpend
    (fun e he => .inl (List.eq_of_mem_replicate he)) (by simp [hi])
  rw [List.length_replicate] at hrun
  have hinv := run_keeps_inv h hrun
  obtain ⟨u, hu, hrv, -⟩ := step_sequencer_of_finish hinv hp (by simp [hi]) rfl
  exact ⟨u, (run_add hrun).trans (run_succ_of_next hu), ((step_keeps_inv hinv hu).spec.result hrv).1, hrv⟩

/-- The write of COMPUTE's word before an idle block with acceptable inputs starts the scan (R88, R126). -/
theorem step_compute_starts {s : State} {rest : List Event} (h : s.Inv) (hp : s.phase = .idle)
    (hv : validate s = .none) (hpend : s.pending = cmdWrite s.cfg 0x00000004 :: rest) :
    ∃ work, step s = .next { clearResult s with
      errcode := .none, work := work, scanI := 0, phase := .scan, pending := rest } := by
  obtain ⟨d, hd⟩ := h.dataValued
  obtain ⟨work, hc, -⟩ := execCompute_of_accepted (s := { s with pending := rest }) h.wf hd hv
  exact ⟨work, (stepRunsDecodedCommand s _ .compute rest hp hpend (decode_encode .compute)).trans hc⟩

/-- Settles O47: the scan that COMPUTE starts is busy until its last slot is taken, so a command written before is lost,
and one written after is dispatched. -/
theorem busyHazardHasBothOutcomes : Obligations.BusyHazardHasBothOutcomes := by
  refine fun s v rest h hidle hv => ⟨fun hpend => ?_, fun hpend => ?_⟩
  · obtain ⟨work, hs⟩ := step_compute_starts h hidle hv hpend
    exact ⟨_, (run_succ_of_next hs).trans (run_succ_of_next (dispatchTestsBusyFirst.1 v _ rest rfl rfl)),
      rfl, rfl, rfl, rfl, rfl⟩
  · obtain ⟨work, hs⟩ := step_compute_starts h hidle hv hpend
    obtain ⟨u, hu, huidle, hurv⟩ := run_slots_to_result (step_keeps_inv h hs) rfl rfl rfl
    obtain ⟨hcfg, hlost, hrest⟩ := run_slots_frame rfl hu
    exact ⟨u, (run_succ_of_next hs).trans hu, hlost, huidle, hurv,
      step_cmdWrite (by rw [hrest, hcfg]; rfl)⟩

/-! ### Reset and CLEAR (R230, R231) -/

/-- Settles O8: a reset and a loss of power move from the head of what is pending, and leave the reset state. -/
theorem resetWinsFromAnyState : Obligations.ResetWinsFromAnyState := by
  refine ⟨fun s rest coinciding hp => ?_, fun s rest hp => ⟨0, step_powerLoss hp⟩⟩
  obtain ⟨answers, draws, hr⟩ := runEvent_reset coinciding { s with pending := rest }
  exact ⟨0, answers, draws, (step_reset hp).trans hr⟩

/-- After CLEAR and after reset no cell is readable, so the two states are the same for the host. -/
theorem cleared_sameForHost_reset (s : State) :
    s.cleared.sameForHost { State.resetFor s.cfg with
      pending := s.pending, answers := s.answers, draws := s.draws } :=
  ⟨rfl, rfl, rfl, nofun, nofun⟩

/-- Settles O9: CLEAR of an idle block leaves the reset state with other cells, which is idle and has no inputs. -/
theorem clearMatchesReset : Obligations.ClearMatchesReset := by
  intro s t _ hidle hc
  cases (exec_clear_of_idle hidle).symm.trans hc
  exact ⟨cleared_sameForHost_reset s, busy_eq_false.mpr rfl, rfl, rfl⟩

end Sys2Proof.Machine
end
